-- ==== Sys2Proof/Word.lean ====
section
/-! DEFINITION. The bit-vector types of the block (R8 `W`, R12, R25, R61). -/

namespace Sys2Proof

/-- A state word, a seed, a scratch value, a result: 64 bits, unsigned, bit 0 least significant (R8, R12). -/
abbrev Word := BitVec 64

/-- The cursor register, 9 bits wide (R25). -/
abbrev Cursor := BitVec 9

/-- One command in the format `CMD`: `op` in bits 66:64, `arg` in bits 63:0 (R61). -/
abbrev CmdWord := BitVec 67

end Sys2Proof
end

