-- ==== Sys2Proof/Syntax.lean ====
section
/-! DEFINITION. The commands of the block: one constructor per row of spec/opcode_table.json (R62), each with the
64-bit argument field of its command word (R61). -/

namespace Sys2Proof

/-- The eight rows of R62. Only `seed` uses its argument; the other rows keep the field because it is part of the
command word, and every value of it is legal (R63). -/
inductive Instr where
  | seed (arg : Word)
  | nextU64 (arg : Word)
  | nextRealClosed (arg : Word)
  | nextRealHalfOpen (arg : Word)
  | nextRealOpen (arg : Word)
  | advance (arg : Word)
  | reserved6 (arg : Word)
  | reserved7 (arg : Word)
deriving DecidableEq, Repr

end Sys2Proof
end

