-- ==== Sys2Proof/WellFormed.lean ====
section
/-! DEFINITION. Which commands the host may issue (R64, R65). -/

namespace Sys2Proof

/-- With `op` 0 to 5 every command word is legal whatever `arg` holds (R63, R65); opcodes 6 and 7 are reserved and
the host must not issue one (R64). -/
def Instr.wellFormed : Instr → Bool
  | .seed _ => true
  | .nextU64 _ => true
  | .nextRealClosed _ => true
  | .nextRealHalfOpen _ => true
  | .nextRealOpen _ => true
  | .advance _ => true
  | .reserved6 _ => false
  | .reserved7 _ => false

end Sys2Proof
end

