-- ==== Sys2Proof/Decode.lean ====
section
/-! DEFINITION. The command word: fields (R61), the opcode map (R62), the decoder and the encoder. -/

namespace Sys2Proof

/-- Field `op`, bits 66:64 (R61). -/
def opField (c : CmdWord) : BitVec 3 := c.extractLsb' 64 3

/-- Field `arg`, bits 63:0, used whole (R61, R63). -/
def argField (c : CmdWord) : Word := c.extractLsb' 0 64

/-- The command a word stands for: its opcode picks the row of R62, its argument is taken whole. The two reserved
opcodes decode to rows of their own and never to a neighbour (R64). -/
def decode (c : CmdWord) : Instr :=
  match (opField c).toNat with
  | 0 => .seed (argField c)
  | 1 => .nextU64 (argField c)
  | 2 => .nextRealClosed (argField c)
  | 3 => .nextRealHalfOpen (argField c)
  | 4 => .nextRealOpen (argField c)
  | 5 => .advance (argField c)
  | 6 => .reserved6 (argField c)
  | _ => .reserved7 (argField c)

/-- Why a string of bits is no command at all. -/
inductive DecodeError where
  /-- A bit above bit 66 is set: the one format `CMD` has exactly 67 bits and no longer form (R61). Safe: nothing
  is decoded. -/
  | widerThanCmd
deriving DecidableEq, Repr

/-- The decoder on any bits, read as one number with bit 0 least significant (log 14). -/
def decodeBits (bits : Nat) : Except DecodeError Instr :=
  if bits < 2 ^ 67 then .ok (decode (BitVec.ofNat 67 bits)) else .error .widerThanCmd

/-- The opcode of a command (R62). -/
def Instr.opcode : Instr → BitVec 3
  | .seed _ => 0#3
  | .nextU64 _ => 1#3
  | .nextRealClosed _ => 2#3
  | .nextRealHalfOpen _ => 3#3
  | .nextRealOpen _ => 4#3
  | .advance _ => 5#3
  | .reserved6 _ => 6#3
  | .reserved7 _ => 7#3

/-- The argument field of a command (R61). -/
def Instr.arg : Instr → Word
  | .seed a => a
  | .nextU64 a => a
  | .nextRealClosed a => a
  | .nextRealHalfOpen a => a
  | .nextRealOpen a => a
  | .advance a => a
  | .reserved6 a => a
  | .reserved7 a => a

/-- The row's mnemonic in spec/opcode_table.json. -/
def Instr.mnemonic : Instr → String
  | .seed _ => "SEED"
  | .nextU64 _ => "NEXT_U64"
  | .nextRealClosed _ => "NEXT_REAL_CLOSED"
  | .nextRealHalfOpen _ => "NEXT_REAL_HALF_OPEN"
  | .nextRealOpen _ => "NEXT_REAL_OPEN"
  | .advance _ => "ADVANCE"
  | .reserved6 _ => "RESERVED_6"
  | .reserved7 _ => "RESERVED_7"

/-- The command word of a command: `op` above `arg` (R61). -/
def encode (i : Instr) : CmdWord := i.opcode ++ i.arg

/-- One row of the opcode map: a command word `c` selects it when `c &&& mask` is `pattern` (R62). -/
structure OpcodeRow where
  mnemonic : String
  pattern : CmdWord
  mask : CmdWord
deriving DecidableEq, Repr

/-- The opcode map as the table of R62 gives it. -/
def opcodeTable : List OpcodeRow :=
  [⟨"SEED", 0x00000000000000000#67, 0x70000000000000000#67⟩,
   ⟨"NEXT_U64", 0x10000000000000000#67, 0x70000000000000000#67⟩,
   ⟨"NEXT_REAL_CLOSED", 0x20000000000000000#67, 0x70000000000000000#67⟩,
   ⟨"NEXT_REAL_HALF_OPEN", 0x30000000000000000#67, 0x70000000000000000#67⟩,
   ⟨"NEXT_REAL_OPEN", 0x40000000000000000#67, 0x70000000000000000#67⟩,
   ⟨"ADVANCE", 0x50000000000000000#67, 0x70000000000000000#67⟩,
   ⟨"RESERVED_6", 0x60000000000000000#67, 0x70000000000000000#67⟩,
   ⟨"RESERVED_7", 0x70000000000000000#67, 0x70000000000000000#67⟩]

/-- The host's table interface: the command the decoder reads from the low `nbits` bits of `w`; every bit above
them is 0. -/
def decodeTableWord (nbits w : Nat) : Option Instr :=
  match decodeBits (w % 2 ^ nbits) with
  | .ok i => some i
  | .error _ => none

end Sys2Proof
end

