-- ==== Sys2Proof/Config.lean ====
section
/-! DEFINITION. What is fixed for the machine and stands in its types. Every algorithmic constant of R8 is in
Machine/Constants.lean; the OPEN parameters of R9 (latencies, clock, reset polarity) are not represented (log 15).
The block leaves no result undefined, so there is no free value here. -/

namespace Sys2Proof

/-- `NN`: the number of state words (R8, R20). -/
abbrev NN : Nat := 312

end Sys2Proof
end

