-- ==== Sys2Proof/Machine/State.lean ====
section
/-! DEFINITION. The state of the block, its reset value, and the reasons a step can stop (R20 to R36, R164, R180). -/

namespace Sys2Proof.Machine

/-- The one indexed store, `words` (R20, R32, R40): a list of (word index, 64-bit word) pairs. The unit addressed is
one whole word (R40), so a cell holds a word, not a byte. An index that is not listed holds NO value: the spec
forbids giving a word a value before a `SEED` writes it (R36; log 3). The canonical form is `Memory.wf`. -/
abbrev Memory := List (Nat × Word)

/-- What the block answers to a command (R66): exactly one response each, with at most one 64-bit result. -/
inductive Response where
  /-- The response of `SEED` and `ADVANCE`: it carries no data, and the model holds no value for it (R66; log 11). -/
  | noData
  /-- The response of an output command: the 64-bit result, an unsigned integer or a binary64 pattern (R66). -/
  | data (value : Word)
deriving DecidableEq, Repr

/-- What can come from outside (R193), and the one violation R164 names beside it. -/
inductive HostAction where
  /-- The host asserts reset (R180). -/
  | reset
  /-- The host presents one command (R61, R69). -/
  | issue (c : CmdWord)
  /-- The host waits for the response to its last command and takes it (R69). -/
  | take
  /-- Some agent other than the block reads or writes `words` or `cursor`: outside the block's contract (R164, R165). -/
  | touch
deriving DecidableEq, Repr

/-- Everything the spec gives the block, and the host's remaining actions. -/
structure State where
  /-- The 312 state words (R20). -/
  words : Memory
  /-- The cursor: 0 to 311 the next word, 312 exhausted, 313 never seeded (R22). -/
  cursor : Cursor
  /-- The command register: the command in progress, not yet answered, or none (R29, R69). -/
  cmd : Option CmdWord
  /-- The response register: the response the host has not taken yet, or none (R29, R69). -/
  rsp : Option Response
  /-- The model's own field: what the host does from here on, oldest first (R193; log 1). -/
  host : List HostAction
deriving DecidableEq, Repr

/-- The block raises no exception (R160, R163), so no command takes one. One fault guards the model. -/
inductive Fault where
  /-- Raised by `Memory.readWord` for an index above 311: the space holds indices 0 to 311 and nothing else (R41).
  No rule forms such an index (R42), so no step reaches it. Safe: the model stops (log 16). -/
  | noSuchWord
deriving DecidableEq, Repr

/-- The situations the spec gives no meaning (R164): no next state and no result. -/
inductive Refusal where
  /-- Raised by `exec` for an instruction without a meaning; no arm is left that raises it. Safe. -/
  | notModelled (mnemonic : String)
  /-- Raised by the two reserved rows, opcodes 6 and 7, and by `acceptCommand` when the host issues one (R64, R164;
  log 24). Safe: the spec asks for the refusal. -/
  | reservedOpcode
  /-- Raised by `acceptCommand` for a second command before the first one's response was taken, and by `hostTurn` for an
  outside touch of the state (R164, R165; log 8). Safe: the spec asks for the refusal. -/
  | concurrentAccess
  /-- Raised by `Memory.readWord` and `Memory.loadArray`: a read of a word that nothing has written since reset
  (R36, R164). Unreachable from reset (R34). Safe: the spec asks for the refusal. -/
  | absentWord
  /-- Raised by `whenCursorInRange`: a command, an accepted issue, a wait or an idle step with the cursor above 313
  (R25, R164; log 5). Unreachable from reset. Safe: the spec asks for the refusal. -/
  | cursorOutOfRange
deriving DecidableEq, Repr

/-- The outcome of an operation that yields an `α`. -/
abbrev Result (α : Type) := Host.Outcome α Fault Refusal

/-- Right after reset (R36, R180): cursor 313, no word holds a value, no command in progress, no response pending.
The host's list is the model's own and starts empty (log 20). -/
def State.reset : State :=
  { words := [], cursor := 313#9, cmd := none, rsp := none, host := [] }

end Sys2Proof.Machine
end

