-- ==== Sys2Proof/Machine/Constants.lean ====
section
/-! DEFINITION. The hardwired constants of the block (R8, R28, R30, R141), taken as the spec writes them. -/

namespace Sys2Proof.Machine

/-- `LCG_MUL`, multiplier of the mix step (R8). -/
def lcgMul : Word := 9797719289936477#64
/-- `LCG_ADD`, increment of the mix step (R8). -/
def lcgAdd : Word := 1234567#64
/-- `HIGH_MASK`, bits 63 to 32 (R8). -/
def highMask : Word := 0xFFFFFFFF00000000#64
/-- `POS_MUL`, multiplier of the positional perturbation (R8). -/
def posMul : Nat := 789
/-- `DEFAULT_SEED` (R8, R28). -/
def defaultSeed : Word := 987654321#64
/-- `UNSEEDED`, the sentinel value of the cursor (R8, R22). -/
def unseededCursor : Cursor := 313#9
/-- The value of the cursor that means every word of the generation has been consumed (R22). -/
def exhaustedCursor : Nat := 312
/-- `SEED_CURSOR`, the cursor after a `SEED`: decided 0 (R9, R85, 90_conflicts.md C1; log 6). -/
def seedCursor : Cursor := 0#9
/-- The cursor after an `ADVANCE` (R104). -/
def advanceCursor : Cursor := 0#9
/-- `M0`, first tap offset (R8). -/
def m0 : Nat := 63
/-- `M1`, second tap offset (R8). -/
def m1 : Nat := 151
/-- `M2`, third tap offset (R8). -/
def m2 : Nat := 224
/-- `UPPER_MASK`, bits 63 to 31 (R8, R30). -/
def upperMask : Word := 0xFFFFFFFF80000000#64
/-- `LOWER_MASK`, bits 30 to 0 (R8, R30). -/
def lowerMask : Word := 0x000000007FFFFFFF#64
/-- `MATRIX_A` (R8). -/
def matrixA : Word := 0xB3815B624FC82E2F#64
/-- `T_U`, first tempering shift (R8). -/
def tU : Nat := 26
/-- `T_S`, second tempering shift (R8). -/
def tS : Nat := 17
/-- `T_T`, third tempering shift (R8). -/
def tT : Nat := 33
/-- `T_L`, fourth tempering shift (R8). -/
def tL : Nat := 39
/-- `T_MASK_B`, first tempering mask (R8). -/
def tMaskB : Word := 0x599CFCBFCA660000#64
/-- `T_MASK_C`, second tempering mask (R8). -/
def tMaskC : Word := 0xFFFAAFFE00000000#64

end Sys2Proof.Machine
end

