-- ==== Sys2Proof/Machine/Ops.lean ====
section
/-! DEFINITION. The operations every command shares: sequencing, the word store, the cursor guard and the answer.
Taking an exception and returning from one are not among them: the set of exceptions is empty and there is no trap
mechanism (R160, R163). -/

namespace Sys2Proof.Machine

/-- Do `f` with the value of an operation that yields one; a fault or a refusal ends the command. -/
def andThen {α β : Type} (o : Result α) (f : α → Result β) : Result β :=
  match o with
  | .next a => f a
  | .fault r => .fault r
  | .refused r => .refused r

/-- The canonical form of the store: indices strictly rising, each of them 0 to 311 (R40, R41). An unlisted index
holds no value, so no entry can equal what an unlisted index reads as. -/
abbrev Memory.wf (m : Memory) : Prop :=
  (m.map Prod.fst).Pairwise (· < ·) ∧ ∀ c ∈ m, c.1 < NN

/-- The value an index holds, if it holds one. -/
def Memory.read : Memory → Nat → Option Word
  | [], _ => none
  | (k, v) :: rest, i => if k = i then some v else Memory.read rest i

/-- `words[i]` (R14): the whole 64-bit word (R45). An index above 311 does not exist (R41); a word that nothing has
written has no value and its read is refused (R36, R164). -/
def Memory.readWord (m : Memory) (i : Nat) : Result Word :=
  if i < NN then
    match m.read i with
    | some v => .next v
    | none => .refused .absentWord
  else .fault .noSuchWord

/-- The store that holds every word of an array, and nothing else. -/
def Memory.ofArray (a : Vector Word NN) : Memory :=
  (List.range NN).zip a.toList

/-- All 312 words at once: the array `ADVANCE` works on in place. A store with a word absent is refused before the
first step; since `ADVANCE` reads the old value of every word (R21, R101), this is the refusal of R164 for the read
of an absent word (log 4). -/
def Memory.loadArray (m : Memory) : Result (Vector Word NN) :=
  if h : m.map Prod.fst = List.range NN then
    .next ⟨(m.map Prod.snd).toArray, by simpa using congrArg List.length h⟩
  else .refused .absentWord

/-- A state with the cursor above 313 has no meaning: whatever the block does in it, a command or nothing at all, is
refused (R25, R164; log 5). -/
def whenCursorInRange (s : State) (act : State → Result State) : Result State :=
  if s.cursor.toNat ≤ 313 then act s else .refused .cursorOutOfRange

/-- The end of a command: it is in progress no more, and its one response waits for the host (R66, R69). -/
def answer (r : Response) (s : State) : State :=
  { s with cmd := none, rsp := some r }

end Sys2Proof.Machine
end

