-- ==== Sys2Proof/Machine/Flags.lean ====
section
/-! DEFINITION. The block has no flag (R26). These are the three predicates its rules test; none is stored. -/

namespace Sys2Proof.Machine

/-- `unseeded`: no `SEED` has run since reset (R26). -/
def unseeded (c : Cursor) : Bool := c == unseededCursor

/-- `needs_advance`: exhausted or unseeded (R26). -/
def needsAdvance (c : Cursor) : Bool := decide (exhaustedCursor ≤ c.toNat)

/-- `dropped_bit`: bit 0 of the assembled value (R26, R102). -/
def droppedBit (x : Word) : Bool := x.getLsbD 0

end Sys2Proof.Machine
end

