-- ==== Sys2Proof/Machine/Operands.lean ====
section
/-! DEFINITION. The operand forms. A command has one operand, `arg`, used whole by `SEED` and ignored by the others
(R63); no command carries an address (R72). The index forms made inside the commands are three (R72): a loop index,
a loop index plus an offset modulo 312, and the cursor. -/

namespace Sys2Proof.Machine

/-- The seed of `SEED`: `arg` as it stands, no extension, scaling or shift (R63). -/
def seedOperand (arg : Word) : Word := arg

/-- The loop index of step `n` of the twist; the loop runs over 0 to 311, where it is `n` itself (R104). -/
def loopIndex (n : Nat) : Fin NN := ⟨n % NN, Nat.mod_lt _ (by decide)⟩

/-- `(i + k) mod 312` (R42, R101): always the index of a word. -/
def wrapIndex (i : Fin NN) (k : Nat) : Fin NN := ⟨(i.val + k) % NN, Nat.mod_lt _ (by decide)⟩

/-- The index the cursor names; used only when it is 0 to 311 (R72, R120). -/
def cursorIndex (c : Cursor) : Nat := c.toNat

end Sys2Proof.Machine
end

