-- ==== Sys2Proof/Machine/Seed.lean ====
section
/-! DEFINITION. Seeding, sub-unit `lcg_seed_mixer` (R80 to R88). -/

namespace Sys2Proof.Machine

/-- `MIX` (R80): the 64-bit multiply-add, wrapping. -/
def mix (s : Word) : Word := lcgMul * s + lcgAdd

/-- `SEED_WORD` (R82, R83): the upper half of `s1` left in place, the upper half of `s2` moved down, and the
positional perturbation added to the whole word, wrapping (R84). -/
def seedWord (s1 s2 : Word) (position : Nat) : Word :=
  ((s1 &&& highMask) ||| (s2 >>> 32)) + BitVec.ofNat 64 (posMul * (position + 1))

/-- The loop of `SEED` (R85): `n` positions from `position` on, in ascending order, two mixes each; the cells it
writes. -/
def seedFrom : (n position : Nat) → (scratch : Word) → Memory
  | 0, _, _ => []
  | n + 1, position, scratch =>
    let s1 := mix scratch
    let s2 := mix s1
    (position, seedWord s1 s2 position) :: seedFrom n (position + 1) s2

/-- The effect of a seeding on the generator state (R85): every word, then the cursor. It reads no state. -/
def seedState (seed : Word) (s : State) : State :=
  { s with words := seedFrom NN 0 seed, cursor := seedCursor }

/-- `SEED` (R85). -/
def execSeed (arg : Word) (s : State) : Result State :=
  whenCursorInRange s fun s => .next (answer .noData (seedState (seedOperand arg) s))

end Sys2Proof.Machine
end

