-- ==== Sys2Proof/Machine/Twist.lean ====
section
/-! DEFINITION. State advance, sub-unit `state_advance_twist` (R100 to R111). -/

namespace Sys2Proof.Machine

/-- `ASSEMBLE` (R100): bits 63:31 of `cur`, bits 30:0 of `nxt`. -/
def assemble (cur nxt : Word) : Word := (cur &&& upperMask) ||| (nxt &&& lowerMask)

/-- `TWIST_F` (R101, R102): the new word as a function of the five words read. -/
def twistF (cur nxt t0 t1 t2 : Word) : Word :=
  let x := assemble cur nxt
  (x >>> 1) ^^^ (if droppedBit x then matrixA else 0#64) ^^^ t0 ^^^ t1 ^^^ t2

/-- `TWIST_STEP(i)` (R101): five reads, then one write, in place. -/
def twistStep (a : Vector Word NN) (i : Fin NN) : Vector Word NN :=
  a.set i (twistF a[i] a[wrapIndex i 1] a[wrapIndex i m0] a[wrapIndex i m1] a[wrapIndex i m2])

/-- The array after steps 0 to `n - 1`, in ascending order, each complete before the next (R104, R105). -/
def twistSteps (a : Vector Word NN) : Nat → Vector Word NN
  | 0 => a
  | n + 1 => twistStep (twistSteps a n) (loopIndex n)

/-- `ADVANCE` on the generator state (R104), as the host and `FETCH_WORD` both call it: the default seed first when
the block was never seeded, then the 312 steps in place, then the cursor. -/
def advanceState (s : State) : Result State :=
  let seeded := if unseeded s.cursor then seedState defaultSeed s else s
  andThen seeded.words.loadArray fun a =>
    .next { seeded with words := Memory.ofArray (twistSteps a NN), cursor := advanceCursor }

/-- `ADVANCE` (R104); its argument is ignored (R63). -/
def execAdvance (_arg : Word) (s : State) : Result State :=
  whenCursorInRange s fun s => andThen (advanceState s) fun s' => .next (answer .noData s')

end Sys2Proof.Machine
end

