-- ==== Sys2Proof/Machine/Output.lean ====
section
/-! DEFINITION. Word fetch, tempering (sub-unit `tempering_xform`) and the integer output (R120 to R129). -/

namespace Sys2Proof.Machine

/-- `TEMPER` (R121): four steps in this order, each on the result of the one before. -/
def temper (x : Word) : Word :=
  let a := x ^^^ (x >>> tU)
  let b := a ^^^ ((a <<< tS) &&& tMaskB)
  let c := b ^^^ ((b <<< tT) &&& tMaskC)
  c ^^^ (c >>> tL)

/-- `FETCH_WORD` (R120): advance first when no word is left, read the word the cursor names, move the cursor on, and
temper the value read. The stored word keeps its untempered value. -/
def fetchWord (s : State) : Result (State × Word) :=
  andThen (if needsAdvance s.cursor then advanceState s else .next s) fun s' =>
  andThen (s'.words.readWord (cursorIndex s'.cursor)) fun x =>
    .next ({ s' with cursor := s'.cursor + 1#9 }, temper x)

/-- A draw: one fetch, whose word `convert` turns into the result (R126). -/
def draw (convert : Word → Word) (s : State) : Result State :=
  whenCursorInRange s fun s =>
    andThen (fetchWord s) fun p => .next (answer (.data (convert p.2)) p.1)

/-- `NEXT_U64` (R125): the fetched word unchanged; the argument is ignored (R63). -/
def execNextU64 (_arg : Word) (s : State) : Result State := draw (fun x => x) s

end Sys2Proof.Machine
end

