-- ==== Sys2Proof/Machine/Real.lean ====
section
/-! DEFINITION. The real-valued outputs (R140 to R149). Every step is one correctly rounded binary64 operation; the
values are exact multiples of powers of two, so each step is integer arithmetic followed by one rounding (R140). -/

namespace Sys2Proof.Machine

/-- The non-negative real number `mant * 2^expo`, exactly. -/
structure Scaled where
  mant : Nat
  expo : Int
deriving DecidableEq, Repr

/-- `RN` (R14, R140): the nearest value of 53 significant bits, a tie going to the even significand; the integer
algorithm is R142's. The exponent is not bounded, DEDUCED: no result of the block is subnormal or infinite (R147; log 12). -/
def roundNearest (q : Scaled) : Scaled :=
  if q.mant < 2 ^ 53 then q
  else
    let sh := q.mant.log2 + 1 - 53
    let m := q.mant >>> sh
    let r := q.mant % 2 ^ sh
    let half := 2 ^ (sh - 1)
    if r > half ∨ (r = half ∧ m % 2 = 1) then ⟨m + 1, q.expo + sh⟩ else ⟨m, q.expo + sh⟩

/-- The exact product. -/
def Scaled.mul (a b : Scaled) : Scaled := ⟨a.mant * b.mant, a.expo + b.expo⟩

/-- The exact sum, at the smaller of the two exponents. -/
def Scaled.add (a b : Scaled) : Scaled :=
  let e := min a.expo b.expo
  ⟨a.mant * 2 ^ (a.expo - e).toNat + b.mant * 2 ^ (b.expo - e).toNat, e⟩

/-- The binary64 pattern of a value of at most 53 significant bits in the normal range (R142): sign 0, exponent field
`e + 1075` and fraction `m - 2^52` for the value `m * 2^e` with `2^52 <= m < 2^53`; zero is all zeros. The spec
takes the field layout from general knowledge (93_implementation_defined.md G3; log 22). -/
def toPattern (q : Scaled) : Word :=
  if q.mant = 0 then 0#64
  else
    let n := q.mant.log2
    let m := if n ≤ 52 then q.mant <<< (52 - n) else q.mant >>> (n - 52)
    let e := q.expo + n - 52
    BitVec.ofNat 64 ((e + 1075).toNat * 2 ^ 52 + (m - 2 ^ 52))

/-- `K_CLOSED`, exactly 2^-64 (R141; log 13). -/
def kClosed : Scaled := ⟨1, -64⟩
/-- `K_HALF`, exactly 2^-64 - 2^-117 (R141; log 13). -/
def kHalf : Scaled := ⟨2 ^ 53 - 1, -117⟩
/-- `K_OPEN`, exactly 2^-52 (R141; log 13). -/
def kOpen : Scaled := ⟨1, -52⟩
/-- The addend 0.5 of the open output (R145). -/
def oneHalf : Scaled := ⟨1, -1⟩

/-- `U64_TO_F64` (R142): the binary64 value nearest to the unsigned integer. -/
def u64ToF64 (x : Word) : Scaled := roundNearest ⟨x.toNat, 0⟩

/-- The value of `NEXT_REAL_CLOSED` for the fetched word (R143). -/
def closedValue (x : Word) : Scaled := roundNearest ((u64ToF64 x).mul kClosed)

/-- The value of `NEXT_REAL_HALF_OPEN` for the fetched word (R144). -/
def halfOpenValue (x : Word) : Scaled := roundNearest ((u64ToF64 x).mul kHalf)

/-- The value of `NEXT_REAL_OPEN` for the fetched word (R145): the low 12 bits are discarded. -/
def openValue (x : Word) : Scaled :=
  roundNearest ((roundNearest ((u64ToF64 (x >>> 12)).add oneHalf)).mul kOpen)

/-- `NEXT_REAL_CLOSED` (R143); the argument is ignored (R63). -/
def execNextRealClosed (_arg : Word) (s : State) : Result State :=
  draw (fun x => toPattern (closedValue x)) s

/-- `NEXT_REAL_HALF_OPEN` (R144); the argument is ignored (R63). -/
def execNextRealHalfOpen (_arg : Word) (s : State) : Result State :=
  draw (fun x => toPattern (halfOpenValue x)) s

/-- `NEXT_REAL_OPEN` (R145); the argument is ignored (R63). -/
def execNextRealOpen (_arg : Word) (s : State) : Result State :=
  draw (fun x => toPattern (openValue x)) s

end Sys2Proof.Machine
end

