-- ==== Sys2Proof/Machine/Reserved.lean ====
section
/-! DEFINITION. The two reserved rows (R64): no meaning, refused by name; not a no-op, no value, no change of state. -/

namespace Sys2Proof.Machine

/-- Opcode 6, reserved (R64, R164). -/
def execReserved6 (_arg : Word) (_s : State) : Result State := .refused .reservedOpcode

/-- Opcode 7, reserved (R64, R164). -/
def execReserved7 (_arg : Word) (_s : State) : Result State := .refused .reservedOpcode

end Sys2Proof.Machine
end

