-- ==== Sys2Proof/Machine/Dispatch.lean ====
section
/-! DEFINITION. One arm per constructor of Instr: the command's meaning. -/

namespace Sys2Proof.Machine

def exec (i : Instr) (s : State) : Host.Outcome State Fault Refusal :=
  match i with
  | .seed arg => Sys2Proof.Machine.execSeed arg s
  | .nextU64 arg => Sys2Proof.Machine.execNextU64 arg s
  | .nextRealClosed arg => Sys2Proof.Machine.execNextRealClosed arg s
  | .nextRealHalfOpen arg => Sys2Proof.Machine.execNextRealHalfOpen arg s
  | .nextRealOpen arg => Sys2Proof.Machine.execNextRealOpen arg s
  | .advance arg => Sys2Proof.Machine.execAdvance arg s
  | .reserved6 arg => Sys2Proof.Machine.execReserved6 arg s
  | .reserved7 arg => Sys2Proof.Machine.execReserved7 arg s

end Sys2Proof.Machine
end

