-- ==== Sys2Proof/Machine/Port.lean ====
section
/-! DEFINITION. The host interface at transaction level (R29, R69, R70, R180, R181, R193): which command runs next,
and what each action of the host does. -/

namespace Sys2Proof.Machine

/-- The host is waiting: it has nothing more to do, or it waits to take the response (R69). -/
def hostWaits : List HostAction → Bool
  | [] => true
  | .take :: _ => true
  | .reset :: _ => false
  | .issue _ :: _ => false
  | .touch :: _ => false

/-- A command word whose opcode is reserved: the host must not issue one (R64). -/
def reservedCommand (c : CmdWord) : Bool := !(decode c).wellFormed

/-- The command the block runs in this step: the one in progress, when the host waits for it (R69; log 21). A reserved
opcode in progress comes to its refusal whatever the host does next, a reset included: no claim can be made about a run
that issues one (R64; DEDUCED, log 24). -/
def fetchCommand (s : State) : Option CmdWord :=
  match s.cmd with
  | some c => if hostWaits s.host || reservedCommand c then some c else none
  | none => none

/-- The reset event (R180), also during a command, which it abandons without a response (R181; log 9). What the host
does afterwards is no part of the block and stays. -/
def resetBlock (rest : List HostAction) : State :=
  { State.reset with host := rest }

/-- The host presents a command. It is accepted only when none is in progress and no response waits to be taken (R70
`cmd_ready`); otherwise it is a concurrent access (R164, R165; log 8). A reserved opcode is refused as soon as it is
issued, so that no later action, a reset included, gives the run an outcome (R64, R181; DEDUCED, log 24). -/
def acceptCommand (c : CmdWord) (rest : List HostAction) (s : State) : Result State :=
  if s.cmd.isSome || s.rsp.isSome then .refused .concurrentAccess
  else if reservedCommand c then .refused .reservedOpcode
  else whenCursorInRange s fun s => .next { s with cmd := some c, host := rest }

/-- The host waits for the response and takes it (R69). A wait with no response to come leaves everything as it is
(log 10). -/
def takeResponse (rest : List HostAction) (s : State) : Result State :=
  .next (if s.rsp.isSome then { s with rsp := none, host := rest } else s)

/-- One action of the host, when no command runs in this step. With nothing to do the block is idle and holds its
state (R172). A state with the cursor above 313 has no next state here either (R164), but for the one that reset gives,
which depends on no state (R180; log 5). A reset abandons the command in progress (R181; log 9); a reserved opcode is
never abandoned: it is refused before the host acts (`fetchCommand`, `acceptCommand`; log 24). -/
def hostTurn (s : State) : Result State :=
  match s.host with
  | [] => whenCursorInRange s .next
  | .reset :: rest => .next (resetBlock rest)
  | .issue c :: rest => acceptCommand c rest s
  | .take :: rest => whenCursorInRange s (takeResponse rest)
  | .touch :: _ => .refused .concurrentAccess

/-- Put a command in the command register of a block that is ready for one, with the host waiting for its response:
the command of the very next step (log 2). -/
def presentCommand (c : CmdWord) (s : State) : State :=
  { s with cmd := some c, rsp := none, host := .take :: s.host }

end Sys2Proof.Machine
end

