-- ==== Sys2Proof/Machine/Step.lean ====
section
/-! DEFINITION. One step: the command in progress runs whole, as one atomic step (R11, R46), or the host acts. -/

namespace Sys2Proof.Machine

/-- One step of the block and its host. -/
def step (s : State) : Host.Outcome State Fault Refusal :=
  match fetchCommand s with
  | some c => exec (decode c) s
  | none => hostTurn s

/-- The command of the low `nbits` bits of `w` is the next one the block runs. The command register has 67 bits
(R61), so a bit above bit 66 has no place in it (log 14). -/
def State.withFetchWord (s : State) (nbits w : Nat) : State :=
  presentCommand (BitVec.ofNat 67 (w % 2 ^ nbits)) s

end Sys2Proof.Machine
end

