-- ==== Sys2Proof/Safety.lean ====
section
/-! DEFINITION. What counts as a sound state, as the same state, and as a host that keeps its obligations
(R23, R34, R35, R69, R185); and the spec's own closed forms and inverses, written from its formulas and not from the
machine's definitions, which claims compare the machine with. -/

namespace Sys2Proof.Machine

/-- The invariant of the block (R22, R23, R34, R69): the store is in canonical form; the cursor is at most 313; once
seeded every word holds a value; never seeded, none does; and no response waits while a command is in progress. -/
abbrev State.Inv (s : State) : Prop :=
  s.words.wf ∧ s.cursor.toNat ≤ 313 ∧
  (s.cursor.toNat ≤ 312 → ∀ i < NN, (s.words.read i).isSome) ∧
  (s.cursor = unseededCursor → s.words = []) ∧
  (s.cmd.isSome → s.rsp = none)

/-- Two blocks are in the same generator state (R35): equal cursors and, unless that cursor is 313, equal words. -/
def SameGenerator (s t : State) : Prop :=
  s.cursor = t.cursor ∧ (s.cursor ≠ unseededCursor → s.words = t.words)

/-- A command of the block is outstanding: in progress, or its response not yet taken (R69, R70). -/
def State.busy (s : State) : Bool := s.cmd.isSome || s.rsp.isSome

/-- The host's actions keep R69, R185 and R64 from a block that is busy or not: it issues a legal command only when
nothing is outstanding, takes a response only when one is, and never touches the state. -/
def hostLegal : Bool → List HostAction → Bool
  | _, [] => true
  | _, .reset :: rest => hostLegal false rest
  | busy, .issue c :: rest => !busy && (decode c).wellFormed && hostLegal true rest
  | busy, .take :: rest => busy && hostLegal false rest
  | _, .touch :: _ => false

/-- The state of a run that stays within the contract: sound, a legal command in progress if any, and a host that
keeps its obligations. -/
def State.Safe (s : State) : Prop :=
  s.Inv ∧ (∀ c, s.cmd = some c → (decode c).wellFormed = true) ∧ hostLegal s.busy s.host = true

/-- The four output commands (R16 "draw"). -/
def isDraw : Instr → Bool
  | .seed _ => false
  | .nextU64 _ => true
  | .nextRealClosed _ => true
  | .nextRealHalfOpen _ => true
  | .nextRealOpen _ => true
  | .advance _ => false
  | .reserved6 _ => false
  | .reserved7 _ => false

/-- `n` draws of `NEXT_U64` one after the other. -/
def drawMany : Nat → State → Result State
  | 0, s => .next s
  | n + 1, s => andThen (drawMany n s) (exec (.nextU64 0#64))

/-- The real number a scaled value stands for. -/
def Scaled.value (q : Scaled) : ℚ := (q.mant : ℚ) * (2 : ℚ) ^ q.expo

end Sys2Proof.Machine

namespace Sys2Proof.Spec

/-- `s_k` of R86: the seed after `k` mixes, with R80's formula. -/
def mixed (seed : Word) : Nat → Word
  | 0 => seed
  | k + 1 => 9797719289936477#64 * mixed seed k + 1234567#64

/-- The closed form of a seeded word (R86). -/
def seededWord (seed : Word) (p : Nat) : Word :=
  ((mixed seed (2 * p + 1) &&& 0xFFFFFFFF00000000#64) ||| (mixed seed (2 * p + 2) >>> 32)) +
    BitVec.ofNat 64 (789 * (p + 1))

/-- `X[n]` of R110: the sequence of all words ever held, generation after generation, after one seeding. -/
def wordSequence (seed : Word) (n : Nat) : Word :=
  if n < 312 then seededWord seed n
  else
    Machine.twistF (wordSequence seed (n - 312)) (wordSequence seed (n - 312 + 1))
      (wordSequence seed (n - 312 + 63)) (wordSequence seed (n - 312 + 151)) (wordSequence seed (n - 312 + 224))
termination_by n
decreasing_by all_goals omega

/-- `UNTEMPER` (R123), the inverse of `TEMPER`; no function of the block. -/
def untemper (d : Word) : Word :=
  let c := d ^^^ (d >>> 39)
  let b := c ^^^ ((c <<< 33) &&& 0xFFFAAFFE00000000#64)
  let a1 := b ^^^ ((b <<< 17) &&& 0x599CFCBFCA660000#64)
  let a2 := b ^^^ ((a1 <<< 17) &&& 0x599CFCBFCA660000#64)
  let a := b ^^^ ((a2 <<< 17) &&& 0x599CFCBFCA660000#64)
  let x1 := a ^^^ (a >>> 26)
  a ^^^ (x1 >>> 26)

/-- The inverse of `MIX`, with R81's inverse multiplier; no function of the block. -/
def unmix (y : Word) : Word := 0xA967A2A713A9E9F5#64 * (y - 1234567#64)

/-- The real number a non-negative finite binary64 pattern stands for (R16, R142; 93_implementation_defined.md G3). -/
def patternValue (p : Word) : ℚ :=
  let field := (p.extractLsb' 52 11).toNat
  let fraction := (p.extractLsb' 0 52).toNat
  if field = 0 then (fraction : ℚ) * (2 : ℚ) ^ (-1074 : ℤ)
  else ((2 ^ 52 + fraction : ℕ) : ℚ) * (2 : ℚ) ^ ((field : ℤ) - 1075)

/-- The result pattern of `NEXT_REAL_CLOSED` for the fetched word (R143). -/
def closedPattern (x : Word) : Word := Machine.toPattern (Machine.closedValue x)

/-- The result pattern of `NEXT_REAL_HALF_OPEN` for the fetched word (R144). -/
def halfOpenPattern (x : Word) : Word := Machine.toPattern (Machine.halfOpenValue x)

/-- The result pattern of `NEXT_REAL_OPEN` for the fetched word (R145). -/
def openPattern (x : Word) : Word := Machine.toPattern (Machine.openValue x)

end Sys2Proof.Spec
end

