-- ==== Sys2Proof/Certificates/Slice0/Obligations.lean ====
section
/-! DEFINITION. The statements for the provers. Rule numbers are those of spec/. -/

open Sys2Proof Sys2Proof.Machine

/-! ## The command word -/

/-- R61, R63: decoding the command word of any command, with any argument, gives the command back. -/
def Obligations.DecodeOfEncodeIsTheCommand : Prop :=
  ∀ i : Instr, decode (encode i) = i

/-- R61: every one of the 2^67 command words is the command word of what it decodes to: no bit is dropped. -/
def Obligations.EncodeOfDecodeIsTheWord : Prop :=
  ∀ c : CmdWord, encode (decode c) = c

/-- R62: a command word matches exactly the row of the opcode map whose command it decodes to. -/
def Obligations.OpcodeMapSelectsTheDecodedRow : Prop :=
  ∀ c : CmdWord, ∀ r ∈ opcodeTable, c &&& r.mask = r.pattern ↔ (decode c).mnemonic = r.mnemonic

/-- R64, R65: the legal command words are those with `op` 0 to 5, whatever the argument; numbers of more than 67 bits
are no command word (R61), refused by name (the name is the model's, log 14). -/
def Obligations.LegalWordsAreOpcodesZeroToFive : Prop :=
  (∀ c : CmdWord, (decode c).wellFormed = true ↔ (opField c).toNat ≤ 5) ∧
  (∀ bits : Nat, decodeBits bits = .error .widerThanCmd ↔ 2 ^ 67 ≤ bits)

/-- The encodings written in the programs P1 to P6 of spec/95_test_vectors.md section 5. -/
def Obligations.WrittenOutWordsDecode : Prop :=
  decode 0x00000000000000000#67 = .seed 0#64 ∧
  decode 0x0000000003ADE68B1#67 = .seed 987654321#64 ∧
  decode 0x10000000000000000#67 = .nextU64 0#64 ∧
  decode 0x20000000000000000#67 = .nextRealClosed 0#64 ∧
  decode 0x30000000000000000#67 = .nextRealHalfOpen 0#64 ∧
  decode 0x40000000000000000#67 = .nextRealOpen 0#64 ∧
  decode 0x50000000000000000#67 = .advance 0#64 ∧
  decode 0x60000000000000000#67 = .reserved6 0#64 ∧
  decode 0x7FFFFFFFFFFFFFFFF#67 = .reserved7 0xFFFFFFFFFFFFFFFF#64

/-! ## The step, the host and reset -/

/-- R11, R69: while the host waits, the step of a block with a command in progress is that command's execution; and
the step after a command word was put where the block takes its next command is that command's execution. (That the
host's actions and the command stand in the state is the model's choice, log 1 and 2.) -/
def Obligations.StepRunsTheCommandInProgress : Prop :=
  (∀ (s : State) (c : CmdWord), s.cmd = some c → hostWaits s.host = true → step s = exec (decode c) s) ∧
  (∀ (s : State) (nbits w : Nat), w < 2 ^ nbits → w < 2 ^ 67 →
    step (s.withFetchWord nbits w) =
      exec (decode (BitVec.ofNat 67 w)) (presentCommand (BitVec.ofNat 67 w) s))

/-- R69: an idle block whose host issues a command and waits for its response accepts it, runs it, holds exactly one
response, and is ready again once the host has taken it. (The list of host actions is the model's, log 1 and 21.) -/
def Obligations.IssuedCommandIsAnsweredOnce : Prop :=
  ∀ (s t : State) (c : CmdWord) (rest : List HostAction),
    s.cmd = none → s.rsp = none → s.host = .issue c :: .take :: rest →
    exec (decode c) { s with cmd := some c, host := .take :: rest } = .next t →
    ∃ r, t.rsp = some r ∧ t.cmd = none ∧ t.host = .take :: rest ∧
      Sys2Proof.core.run 2 s = .next t ∧
      Sys2Proof.core.run 3 s = .next { t with rsp := none, host := rest }

/-- R36: after reset the cursor is 313, no word holds a value and a read of any word is refused, no command is
pending and no result is pending. -/
def Obligations.ResetLeavesTheBlockUnseeded : Prop :=
  State.reset.cursor = 313#9 ∧
  (∀ i, State.reset.words.read i = none) ∧
  (∀ i, i < 312 → State.reset.words.readWord i = .refused .absentWord) ∧
  State.reset.cmd = none ∧ State.reset.rsp = none

/-- R180, R181: asserting reset gives the reset state from every state, a cursor above 313 included (log 5), also while
a legal command is in progress, which is abandoned without a response (log 9); where a reserved opcode is in progress
the step is that command's refusal instead (the model's reading of R64, log 24). (What the host does afterwards is the
model's own field, log 1, and stays.) -/
def Obligations.ResetEventGivesTheResetState : Prop :=
  ∀ (s : State) (rest : List HostAction), s.host = .reset :: rest →
    ((∀ c, s.cmd = some c → (decode c).wellFormed = true) →
      step s = .next { State.reset with host := rest }) ∧
    (∀ c, s.cmd = some c → (decode c).wellFormed = false → step s = .refused .reservedOpcode)

/-- R23, R180, R184: only reset makes the block unseeded again. (The list of host actions is the model's, log 1.) -/
def Obligations.OnlyResetUnseedsTheBlock : Prop :=
  ∀ s t : State, step s = .next t → t.cursor = 313#9 →
    s.cursor = 313#9 ∨ ∃ rest, s.host = .reset :: rest

/-- R172, R69: between commands the block, its cursor a value the register may hold, is idle and holds its state; taking
the response changes the response register alone; with the cursor above 313 either step is refused (R164; that this
covers the idle block is the model's reading, log 5). (The list of host actions is the model's, log 1 and 20.) -/
def Obligations.IdleBlockHoldsItsState : Prop :=
  (∀ s : State, s.cmd = none → s.host = [] → s.cursor.toNat ≤ 313 → step s = .next s) ∧
  (∀ (s : State) (r : Response) (rest : List HostAction), s.cmd = none → s.rsp = some r → s.host = .take :: rest →
    s.cursor.toNat ≤ 313 → step s = .next { s with rsp := none, host := rest }) ∧
  (∀ s : State, s.cmd = none → (s.host = [] ∨ ∃ rest, s.host = .take :: rest) → 313 < s.cursor.toNat →
    step s = .refused .cursorOutOfRange)

/-- R22, R23, R34, R69: every step keeps the invariant of the block. (The form of the store is the model's, log 3.) -/
def Obligations.StepKeepsTheBlockSound : Prop :=
  ∀ s t : State, s.Inv → step s = .next t → t.Inv

/-- R36: the reset state meets the invariant. -/
def Obligations.ResetStateIsSound : Prop :=
  State.reset.Inv

/-- R160, R185: with a host that keeps its obligations, from every sound state, no step faults or is refused, and the
run stays so. (The list of host actions, and where they fall, are the model's, log 1, 8 and 21.) -/
def Obligations.LawfulHostIsNeverRefused : Prop :=
  ∀ s : State, s.Safe → ∃ t, step s = .next t ∧ t.Safe

/-- R160, R42: no step faults, in any state. (The one fault is the model's guard, log 16.) -/
def Obligations.NoStepFaults : Prop :=
  ∀ (s : State) (f : Fault), step s ≠ .fault f

/-- R64: a reserved opcode has no meaning, in any state and with any argument. -/
def Obligations.ReservedOpcodesAreRefused : Prop :=
  ∀ (arg : Word) (s : State),
    exec (.reserved6 arg) s = .refused .reservedOpcode ∧ exec (.reserved7 arg) s = .refused .reservedOpcode

/-- R164: the refusals and the situations they stand for, each exactly, over a store in canonical form: a reserved
opcode in progress or issued; a second command or an outside touch; any other step but a reset with the cursor above
313; a read of an absent word. (That a command issued before the response was taken counts as concurrent access is
DEDUCED, log 8; that a reserved opcode in progress comes before the host's next action is log 24; the one test for
absent words, the steps a cursor above 313 stops and the order of the tests are log 4, 5 and 21.) -/
def Obligations.RefusalsAreTheListedSituations : Prop :=
  ∀ s : State, s.words.wf →
    (step s = .refused .reservedOpcode ↔
      ∃ c, 6 ≤ (opField c).toNat ∧
        (s.cmd = some c ∨ ∃ rest, s.host = .issue c :: rest ∧ s.busy = false)) ∧
    (step s = .refused .concurrentAccess ↔
      fetchCommand s = none ∧
        ((∃ c rest, s.host = .issue c :: rest ∧ s.busy = true) ∨ ∃ rest, s.host = .touch :: rest)) ∧
    (step s = .refused .cursorOutOfRange ↔
      313 < s.cursor.toNat ∧
        ((∃ c, fetchCommand s = some c ∧ (opField c).toNat ≤ 5) ∨
         (fetchCommand s = none ∧
          (s.host = [] ∨ (∃ rest, s.host = .take :: rest) ∨
           ∃ c rest, s.host = .issue c :: rest ∧ s.busy = false ∧ (opField c).toNat ≤ 5)))) ∧
    (step s = .refused .absentWord ↔
      ∃ c, fetchCommand s = some c ∧
        ((isDraw (decode c) = true ∧ s.cursor.toNat ≤ 311 ∧ s.words.read s.cursor.toNat = none) ∨
         (isDraw (decode c) = true ∧ s.cursor.toNat = 312 ∧ ∃ i < 312, s.words.read i = none) ∨
         ((opField c).toNat = 5 ∧ s.cursor.toNat ≤ 312 ∧ ∃ i < 312, s.words.read i = none))) ∧
    ∀ m, step s ≠ .refused (.notModelled m)

/-! ## Every command -/

/-- R65, R160, R192: in every sound state each of the six commands, with any argument, runs to completion: it answers a
next state, is in progress no more and holds its response; `SEED` and `ADVANCE` carry no data (R66). -/
def Obligations.EveryLegalCommandCompletes : Prop :=
  ∀ (i : Instr) (s : State), i.wellFormed = true → s.Inv →
    ∃ t r, exec i s = .next t ∧ t.cmd = none ∧ t.rsp = some r ∧
      (r = .noData ↔ isDraw i = false)

/-- R21, R23: what a command that answers leaves alone: the host's list (the model's own, log 1); every index that is no word; and, for a draw with a
word left, every word. -/
def Obligations.CommandFrame : Prop :=
  ∀ (i : Instr) (s t : State), exec i s = .next t →
    t.host = s.host ∧
    (s.words.wf → ∀ a, 312 ≤ a → t.words.read a = s.words.read a) ∧
    (isDraw i = true → s.cursor.toNat ≤ 311 → ∀ a, t.words.read a = s.words.read a)

/-- R23: after any completed command the cursor is between 0 and 312. -/
def Obligations.CompletedCommandLeavesTheBlockSeeded : Prop :=
  ∀ (i : Instr) (s t : State), exec i s = .next t → t.cursor.toNat ≤ 312

/-- R63: `SEED` takes the whole argument as the seed; for the other five commands the argument affects neither the
state nor the result; every value is legal; and every row's mask covers the opcode alone. -/
def Obligations.OnlySeedUsesItsArgument : Prop :=
  (∀ (a : Word) (s : State), s.cursor.toNat ≤ 313 →
    exec (.seed a) s = .next (answer .noData (seedState a s))) ∧
  (∀ (a b : Word) (s : State),
    exec (.nextU64 a) s = exec (.nextU64 b) s ∧
    exec (.nextRealClosed a) s = exec (.nextRealClosed b) s ∧
    exec (.nextRealHalfOpen a) s = exec (.nextRealHalfOpen b) s ∧
    exec (.nextRealOpen a) s = exec (.nextRealOpen b) s ∧
    exec (.advance a) s = exec (.advance b) s) ∧
  (∀ a : Word, (Instr.seed a).wellFormed = true ∧ (Instr.nextU64 a).wellFormed = true ∧
    (Instr.nextRealClosed a).wellFormed = true ∧ (Instr.nextRealHalfOpen a).wellFormed = true ∧
    (Instr.nextRealOpen a).wellFormed = true ∧ (Instr.advance a).wellFormed = true) ∧
  (∀ r ∈ opcodeTable, r.mask = 0x70000000000000000#67)

/-- R35: two blocks in the same generator state, with the same registers and the same host, do the same: under every
command, and over any number of steps, two unseeded blocks whatever their words hold. (The list of host actions is the
model's, log 1.) -/
def Obligations.SameGeneratorStateSameBehaviour : Prop :=
  ∀ s t : State, SameGenerator s t → s.cmd = t.cmd → s.rsp = t.rsp → s.host = t.host →
    (∀ i : Instr, exec i s = exec i t) ∧
    ∀ k : Nat,
      (∀ s' : State, Sys2Proof.core.run k s = .next s' →
        ∃ t' : State, Sys2Proof.core.run k t = .next t' ∧
          SameGenerator s' t' ∧ s'.cmd = t'.cmd ∧ s'.rsp = t'.rsp ∧ s'.host = t'.host) ∧
      (∀ r : Refusal, Sys2Proof.core.run k s = .refused r → Sys2Proof.core.run k t = .refused r)

/-! ## Seeding -/

/-- R80: the mix step is the 64-bit multiply-add, wrapping. -/
def Obligations.MixIsTheWrappingMultiplyAdd : Prop :=
  ∀ s : Word, (mix s).toNat = (9797719289936477 * s.toNat + 1234567) % 2 ^ 64

/-- R81: the multiplier is odd, and the mix step is a bijection with the inverse R81 gives. -/
def Obligations.MixIsABijection : Prop :=
  lcgMul.toNat % 2 = 1 ∧ (∀ s : Word, Spec.unmix (mix s) = s) ∧ (∀ y : Word, mix (Spec.unmix y) = y)

/-- 95_test_vectors.md section 3.2: flipping bit 63 of the scratch value flips bit 63 of its mix and nothing else. -/
def Obligations.MixCommutesWithTopBitFlip : Prop :=
  ∀ s : Word, mix (s ^^^ 0x8000000000000000#64) = mix s ^^^ 0x8000000000000000#64

/-- R82, R84: the upper half of each scratch value in its half of the word, and the perturbation added to the whole
word with a carry across bit 31 and none out of bit 63. -/
def Obligations.SeedWordJoinsTheUpperHalves : Prop :=
  ∀ (s1 s2 : Word) (position : Nat),
    (seedWord s1 s2 position).toNat =
      (s1.toNat / 2 ^ 32 * 2 ^ 32 + s2.toNat / 2 ^ 32 + 789 * (position + 1)) % 2 ^ 64

/-- R85, R86: after `SEED`, from any cursor the register may hold and whatever the words were, word `p` is R86's closed
form, the cursor is 0, and the response carries no data. -/
def Obligations.SeedFillsEveryWordFromTheSeedAlone : Prop :=
  ∀ (v : Word) (s : State), s.cursor.toNat ≤ 313 →
    exec (.seed v) s = .next { s with
      words := (List.range 312).map fun p => (p, Spec.seededWord v p)
      cursor := 0#9
      cmd := none
      rsp := some .noData }

/-! ## State advance -/

/-- R100: bits 63 to 31 come from the current word and bits 30 to 0 from the next; the two parts may equally be joined
by exclusive or or by addition. -/
def Obligations.AssembleSplitsAtBit31 : Prop :=
  ∀ cur nxt : Word,
    (∀ k : Nat, (assemble cur nxt).getLsbD k = if 31 ≤ k then cur.getLsbD k else nxt.getLsbD k) ∧
    assemble cur nxt = (cur &&& 0xFFFFFFFF80000000#64) ^^^ (nxt &&& 0x000000007FFFFFFF#64) ∧
    assemble cur nxt = (cur &&& 0xFFFFFFFF80000000#64) + (nxt &&& 0x000000007FFFFFFF#64)

/-- R101, R102: bit by bit, the logical shift of the assembled value, the constant exactly when bit 0 of the next word
is 1, and the three taps. -/
def Obligations.TwistShiftsAndDropsABit : Prop :=
  ∀ (cur nxt t0 t1 t2 : Word) (k : Nat), k < 64 →
    (twistF cur nxt t0 t1 t2).getLsbD k =
      ((((((decide (k < 63) && (assemble cur nxt).getLsbD (k + 1)) ^^
        (nxt.getLsbD 0 && (0xB3815B624FC82E2F#64).getLsbD k)) ^^
        t0.getLsbD k) ^^ t1.getLsbD k) ^^ t2.getLsbD k))

/-- R105, R106: the in-place `ADVANCE` is the recurrence of R106 over the words before the 312 steps (those of the
default seeding, if that ran): each new word is computed from old words and from new ones already computed. -/
def Obligations.AdvanceInPlaceIsTheRecurrence : Prop :=
  ∀ (arg : Word) (s : State) (old : Vector Word NN),
    ((s.cursor.toNat ≤ 312 ∧ s.words = Memory.ofArray old) ∨
      (s.cursor = 313#9 ∧ ∀ (i : Nat) (h : i < NN), old[i] = Spec.seededWord 987654321#64 i)) →
    ∃ new : Vector Word NN,
      exec (.advance arg) s = .next { s with
        words := Memory.ofArray new, cursor := 0#9, cmd := none, rsp := some .noData } ∧
      ∃ sel : Nat → Word,
        (∀ (j : Nat) (h : j < NN), sel j = old[j]) ∧
        (∀ (j : Nat) (h : j < NN), sel (312 + j) = new[j]) ∧
        ∀ (i : Nat) (h : i < NN),
          new[i] = twistF old[i] (sel (i + 1)) (sel (i + 63)) (sel (i + 151)) (sel (i + 224))

/-- R104, R109 (a): `ADVANCE` of an unseeded block is the seeding with 987654321 and then `ADVANCE`. -/
def Obligations.AdvanceOfAnUnseededBlockSeedsFirst : Prop :=
  ∀ (arg : Word) (s : State), s.cursor = 313#9 →
    exec (.advance arg) s = andThen (exec (.seed 987654321#64) s) (exec (.advance arg)) ∧
    ∃ t, exec (.advance arg) s = .next t

/-- R104: the previous cursor matters to `ADVANCE` only through the test for 313. -/
def Obligations.AdvanceForgetsTheCursor : Prop :=
  ∀ (arg : Word) (s : State) (c : Cursor), s.cursor.toNat ≤ 312 → c.toNat ≤ 312 →
    exec (.advance arg) { s with cursor := c } = exec (.advance arg) s

/-- R108: the result of `ADVANCE` does not depend on the low 31 bits of word 0. -/
def Obligations.AdvanceIgnoresLowBitsOfFirstWord : Prop :=
  ∀ (arg : Word) (s : State) (old : Vector Word NN) (w : Word),
    s.cursor.toNat ≤ 312 → w >>> 31 = old[0] >>> 31 →
    exec (.advance arg) { s with words := Memory.ofArray (old.set 0 w) } =
      exec (.advance arg) { s with words := Memory.ofArray old }

/-- R109 (e): the array of zeros is a fixed point of `ADVANCE`. -/
def Obligations.ZeroArrayIsAFixedPointOfAdvance : Prop :=
  ∀ (arg : Word) (s : State), s.cursor.toNat ≤ 312 →
    s.words = Memory.ofArray (Vector.replicate NN 0#64) →
    exec (.advance arg) s = .next { s with cursor := 0#9, cmd := none, rsp := some .noData }

/-! ## Fetch, tempering, integer output -/

/-- R120, R125, R143 to R145: with a word left, each draw tempers the word the cursor names, returns it in its own
form, moves the cursor on by one, and changes nothing else. -/
def Obligations.DrawWithAWordLeft : Prop :=
  ∀ (arg : Word) (s : State) (x : Word), s.cursor.toNat ≤ 311 → s.words.read s.cursor.toNat = some x →
    exec (.nextU64 arg) s =
      .next { s with cursor := s.cursor + 1#9, cmd := none, rsp := some (.data (temper x)) } ∧
    exec (.nextRealClosed arg) s = .next { s with
      cursor := s.cursor + 1#9, cmd := none, rsp := some (.data (Spec.closedPattern (temper x))) } ∧
    exec (.nextRealHalfOpen arg) s = .next { s with
      cursor := s.cursor + 1#9, cmd := none, rsp := some (.data (Spec.halfOpenPattern (temper x))) } ∧
    exec (.nextRealOpen arg) s = .next { s with
      cursor := s.cursor + 1#9, cmd := none, rsp := some (.data (Spec.openPattern (temper x))) }

/-- R120: with no word left (exhausted or unseeded) a draw is one `ADVANCE` and then the draw. -/
def Obligations.DrawWithNoWordLeftAdvancesFirst : Prop :=
  ∀ (i : Instr) (arg : Word) (s : State), isDraw i = true → 312 ≤ s.cursor.toNat →
    exec i s = andThen (exec (.advance arg) s) (exec i)

/-- R126: the four draws share one stream: they do the same to the state and differ in the result alone; each moves the
cursor by exactly one, after the advance if one ran. -/
def Obligations.EveryDrawConsumesOneWord : Prop :=
  ∀ (i j : Instr) (s t : State), isDraw i = true → isDraw j = true → exec i s = .next t →
    (∃ r, exec j s = .next { t with rsp := some (.data r) }) ∧
    t.cursor.toNat = (if s.cursor.toNat ≤ 311 then s.cursor.toNat else 0) + 1

/-- R121, R123: tempering is a bijection with the inverse R123 gives. -/
def Obligations.TemperIsABijection : Prop :=
  (∀ x : Word, Spec.untemper (temper x) = x) ∧ (∀ d : Word, temper (Spec.untemper d) = d)

/-- R124: tempering is linear over exclusive or, and zero is a fixed point. -/
def Obligations.TemperIsLinear : Prop :=
  temper 0#64 = 0#64 ∧ ∀ p q : Word, temper (p ^^^ q) = temper p ^^^ temper q

/-- R110, R127, R129: draw `n + 1` after `SEED v` returns the tempered word `n` of the sequence of R110; the cursor
then counts the words of its generation, and the words held are those of generation `n / 312`. -/
def Obligations.StreamAfterSeedIsTheRecurrence : Prop :=
  ∀ (v : Word) (s : State) (n : Nat), s.cursor.toNat ≤ 313 →
    ∃ t, andThen (exec (.seed v) s) (drawMany (n + 1)) = .next t ∧
      t.rsp = some (.data (temper (Spec.wordSequence v n))) ∧
      t.cursor.toNat = n % 312 + 1 ∧
      t.words = (List.range 312).map fun i => (i, Spec.wordSequence v (n / 312 * 312 + i))

/-- R128: with no `SEED`, draw `n` is the tempered word `312 + n - 1` of the default seed's sequence; drawing `n` times
from an unseeded block is `SEED 987654321` and `n + 312` draws, result and state; after an explicit
`SEED 987654321` the first 312 draws are the tempered seeded words. -/
def Obligations.DefaultStreamIsTheSeededOneLess312 : Prop :=
  (∀ (s : State) (n : Nat), s.cursor = 313#9 →
    ∃ t, drawMany (n + 1) s = .next t ∧
      t.rsp = some (.data (temper (Spec.wordSequence 987654321#64 (312 + n))))) ∧
  (∀ (s : State) (n : Nat), s.cursor = 313#9 →
    drawMany (n + 1) s = andThen (exec (.seed 987654321#64) s) (drawMany (n + 313))) ∧
  (∀ (s : State) (n : Nat), s.cursor.toNat ≤ 313 → n < 312 →
    ∃ t, andThen (exec (.seed 987654321#64) s) (drawMany (n + 1)) = .next t ∧
      t.rsp = some (.data (temper (Spec.seededWord 987654321#64 n))))

/-- R127: after a seeding, 313 draws leave the block as one `ADVANCE` and one draw do. -/
def Obligations.Draw313RunsOneAdvance : Prop :=
  ∀ (v : Word) (s : State), s.cursor.toNat ≤ 313 →
    andThen (exec (.seed v) s) (drawMany 313) =
      andThen (andThen (exec (.seed v) s) (exec (.advance 0#64))) (drawMany 1)

/-- R129: an `ADVANCE` of the host skips the words left of the generation: the next draw returns the tempered first
word of the next one. -/
def Obligations.HostAdvanceSkipsToTheNextGeneration : Prop :=
  ∀ (v arg : Word) (s : State) (n : Nat), s.cursor.toNat ≤ 313 →
    ∃ t, andThen (andThen (andThen (exec (.seed v) s) (drawMany n)) (exec (.advance arg))) (drawMany 1) = .next t ∧
      t.rsp = some (.data (temper (Spec.wordSequence v (312 * ((n - 1) / 312 + 1)))))

/-! ## Real-valued outputs -/

/-- R140, R142: the rounding gives a nearest value among all values of at most 53 significant bits, and where another
one is as near, its own significand is even. (The exponent of a scaled value is not bounded: over every scaled value
this is R140's RN where that lies in the normal range, which every value the block rounds does; log 12, DEDUCED. Outside
that range it is a fact of the model's function alone.) -/
def Obligations.RoundingIsToNearestEven : Prop :=
  ∀ (q : Scaled) (m : Nat) (e : Int), m ≤ 2 ^ 53 →
    (roundNearest q).mant ≤ 2 ^ 53 ∧
    |(roundNearest q).value - q.value| ≤ |(Scaled.mk m e).value - q.value| ∧
    ((Scaled.mk m e).value ≠ (roundNearest q).value →
      |(roundNearest q).value - q.value| = |(Scaled.mk m e).value - q.value| →
      (roundNearest q).mant % 2 = 0)

/-- R142: the pattern of a rounded word, and of each of the three results, stands for its value. -/
def Obligations.PatternsStandForTheirValues : Prop :=
  ∀ x : Word,
    Spec.patternValue (toPattern (u64ToF64 x)) = (u64ToF64 x).value ∧
    Spec.patternValue (Spec.closedPattern x) = (closedValue x).value ∧
    Spec.patternValue (Spec.halfOpenPattern x) = (halfOpenValue x).value ∧
    Spec.patternValue (Spec.openPattern x) = (openValue x).value

/-- R141: each constant is the binary64 value nearest to the document's decimal literal (nearer than a quarter of the
spacing of the values just below it), and has the pattern R141 gives. -/
def Obligations.ConstantsAreTheLiteralsRounded : Prop :=
  (kClosed.value = (2 : ℚ) ^ (-64 : ℤ) ∧ toPattern kClosed = 0x3BF0000000000000#64 ∧
    |kClosed.value - 5421010862427522170 / 10 ^ 38| < (2 : ℚ) ^ (-119 : ℤ)) ∧
  (kHalf.value = (2 : ℚ) ^ (-64 : ℤ) - (2 : ℚ) ^ (-117 : ℤ) ∧ toPattern kHalf = 0x3BEFFFFFFFFFFFFF#64 ∧
    |kHalf.value - 5421010862427521568 / 10 ^ 38| < (2 : ℚ) ^ (-119 : ℤ)) ∧
  (kOpen.value = (2 : ℚ) ^ (-52 : ℤ) ∧ toPattern kOpen = 0x3CB0000000000000#64 ∧
    |kOpen.value - 2220446049250313081 / 10 ^ 34| < (2 : ℚ) ^ (-107 : ℤ))

/-- R143: the closed result is exactly the rounded word times 2^-64; zero gives +0.0; for any other word its pattern is
that of the rounded word less 64 in the exponent field. -/
def Obligations.ClosedOutputIsTheRoundedWordScaled : Prop :=
  Spec.closedPattern 0#64 = 0#64 ∧
  ∀ x : Word, (closedValue x).value = (u64ToF64 x).value * (2 : ℚ) ^ (-64 : ℤ) ∧
    (x ≠ 0#64 → Spec.closedPattern x = toPattern (u64ToF64 x) - 0x0400000000000000#64)

/-- R144: zero gives +0.0; for any other word the half-open result is one binary64 step below the closed one. -/
def Obligations.HalfOpenOutputIsOneStepBelowClosed : Prop :=
  Spec.halfOpenPattern 0#64 = 0#64 ∧
  ∀ x : Word, x ≠ 0#64 → Spec.halfOpenPattern x = Spec.closedPattern x - 1#64

/-- R145: the open result is exactly (2k + 1) / 2^53, `k` the top 52 bits of the word. -/
def Obligations.OpenOutputIsAnOddMultiple : Prop :=
  ∀ x : Word, (openValue x).value = ((2 * (x.toNat / 2 ^ 12) + 1 : ℕ) : ℚ) / 2 ^ 53

/-- R146: the ranges of the three results over all 2^64 words, each end reached. -/
def Obligations.RealOutputsStayInRange : Prop :=
  (∀ x : Word,
    0 ≤ Spec.patternValue (Spec.closedPattern x) ∧ Spec.patternValue (Spec.closedPattern x) ≤ 1 ∧
    0 ≤ Spec.patternValue (Spec.halfOpenPattern x) ∧
    Spec.patternValue (Spec.halfOpenPattern x) ≤ 1 - (2 : ℚ) ^ (-53 : ℤ) ∧
    (2 : ℚ) ^ (-53 : ℤ) ≤ Spec.patternValue (Spec.openPattern x) ∧
    Spec.patternValue (Spec.openPattern x) ≤ 1 - (2 : ℚ) ^ (-53 : ℤ)) ∧
  Spec.patternValue (Spec.closedPattern 0#64) = 0 ∧
  Spec.patternValue (Spec.closedPattern 0xFFFFFFFFFFFFFFFF#64) = 1 ∧
  Spec.patternValue (Spec.halfOpenPattern 0#64) = 0 ∧
  Spec.patternValue (Spec.halfOpenPattern 0xFFFFFFFFFFFFFFFF#64) = 1 - (2 : ℚ) ^ (-53 : ℤ) ∧
  Spec.patternValue (Spec.openPattern 0#64) = (2 : ℚ) ^ (-53 : ℤ) ∧
  Spec.patternValue (Spec.openPattern 0xFFFFFFFFFFFFFFFF#64) = 1 - (2 : ℚ) ^ (-53 : ℤ)

/-- R146: the three results are non-decreasing functions of the word. -/
def Obligations.RealOutputsAreNonDecreasing : Prop :=
  ∀ x y : Word, x ≤ y →
    Spec.patternValue (Spec.closedPattern x) ≤ Spec.patternValue (Spec.closedPattern y) ∧
    Spec.patternValue (Spec.halfOpenPattern x) ≤ Spec.patternValue (Spec.halfOpenPattern y) ∧
    Spec.patternValue (Spec.openPattern x) ≤ Spec.patternValue (Spec.openPattern y)

/-- R147: no result is a NaN, an infinity, negative, negative zero or subnormal: sign 0, exponent field never all ones,
and zero in the exponent field for the pattern of zero alone; the smallest non-zero one is `K_HALF`. -/
def Obligations.RealOutputsAreOrdinaryNumbers : Prop :=
  ∀ x p : Word, p = Spec.closedPattern x ∨ p = Spec.halfOpenPattern x ∨ p = Spec.openPattern x →
    p.getLsbD 63 = false ∧
    (p.extractLsb' 52 11).toNat ≠ 2047 ∧
    ((p.extractLsb' 52 11).toNat = 0 → p = 0#64) ∧
    (p ≠ 0#64 → 0x3BEFFFFFFFFFFFFF#64 ≤ p)

/-- R148: the closed and half-open results depend on the word through the value of its rounding alone, the open one on
its top 52 bits alone; so distinct words can give equal results. -/
def Obligations.RealOutputsDependOnTheTopBits : Prop :=
  (∀ x y : Word,
    ((u64ToF64 x).value = (u64ToF64 y).value →
      Spec.closedPattern x = Spec.closedPattern y ∧ Spec.halfOpenPattern x = Spec.halfOpenPattern y) ∧
    (x >>> 12 = y >>> 12 → Spec.openPattern x = Spec.openPattern y)) ∧
  ∃ x y : Word, x ≠ y ∧ Spec.closedPattern x = Spec.closedPattern y ∧
    Spec.halfOpenPattern x = Spec.halfOpenPattern y ∧ Spec.openPattern x = Spec.openPattern y

/-! ## A run that issues a reserved opcode -/

/-- R64, R164, R181: a run that issues a reserved opcode has no outcome, whatever the host does next, a reset included:
the step that issues one to a ready block is refused, and so is every step of a block with one in progress; no number of
further steps gives such a block a next state. (That the refusal falls at the issue and comes before a reset is the
model's reading, log 24; the list of host actions is the model's, log 1.) -/
def Obligations.RunOfAReservedOpcodeIsRefused : Prop :=
  ∀ (s : State) (c : CmdWord), (decode c).wellFormed = false →
    s.cmd = some c ∨ (s.cmd = none ∧ s.rsp = none ∧ ∃ rest, s.host = .issue c :: rest) →
    ∀ k : Nat, Sys2Proof.core.run (k + 1) s = .refused .reservedOpcode
end

