-- ==== Sys2Proof/Laws/State.lean ====
section
/-! SUPPORT. What each shared update of the state does to each field: one lemma per field, true by rfl. -/

namespace Sys2Proof.Machine

variable (r : Response) (s : State) (v : Word) (c : CmdWord) (rest : List HostAction)

@[simp] theorem answer_words : (answer r s).words = s.words := rfl
@[simp] theorem answer_cursor : (answer r s).cursor = s.cursor := rfl
@[simp] theorem answer_cmd : (answer r s).cmd = none := rfl
@[simp] theorem answer_rsp : (answer r s).rsp = some r := rfl
@[simp] theorem answer_host : (answer r s).host = s.host := rfl

@[simp] theorem seedState_words : (seedState v s).words = seedFrom NN 0 v := rfl
@[simp] theorem seedState_cursor : (seedState v s).cursor = 0#9 := rfl
@[simp] theorem seedState_cmd : (seedState v s).cmd = s.cmd := rfl
@[simp] theorem seedState_rsp : (seedState v s).rsp = s.rsp := rfl
@[simp] theorem seedState_host : (seedState v s).host = s.host := rfl

@[simp] theorem resetBlock_words : (resetBlock rest).words = [] := rfl
@[simp] theorem resetBlock_cursor : (resetBlock rest).cursor = 313#9 := rfl
@[simp] theorem resetBlock_cmd : (resetBlock rest).cmd = none := rfl
@[simp] theorem resetBlock_rsp : (resetBlock rest).rsp = none := rfl
@[simp] theorem resetBlock_host : (resetBlock rest).host = rest := rfl

@[simp] theorem presentCommand_words : (presentCommand c s).words = s.words := rfl
@[simp] theorem presentCommand_cursor : (presentCommand c s).cursor = s.cursor := rfl
@[simp] theorem presentCommand_cmd : (presentCommand c s).cmd = some c := rfl
@[simp] theorem presentCommand_rsp : (presentCommand c s).rsp = none := rfl
@[simp] theorem presentCommand_host : (presentCommand c s).host = .take :: s.host := rfl

@[simp] theorem reset_words : State.reset.words = [] := rfl
@[simp] theorem reset_cursor : State.reset.cursor = 313#9 := rfl
@[simp] theorem reset_cmd : State.reset.cmd = none := rfl
@[simp] theorem reset_rsp : State.reset.rsp = none := rfl
@[simp] theorem reset_host : State.reset.host = [] := rfl

end Sys2Proof.Machine
end

