-- ==== Sys2Proof/Laws/Memory.lean ====
section
/-! SUPPORT. The word store: what a read gives, and that every operation keeps the canonical form. -/

namespace Sys2Proof.Machine

@[simp] theorem Memory.read_nil (i : Nat) : Memory.read [] i = none := rfl

theorem Memory.read_cons (k : Nat) (v : Word) (m : Memory) (i : Nat) :
    Memory.read ((k, v) :: m) i = if k = i then some v else Memory.read m i := rfl

/-- An index that no cell carries holds no value. -/
theorem Memory.read_eq_none {m : Memory} {i : Nat} (h : i ∉ m.map Prod.fst) : m.read i = none := by
  induction m with
  | nil => rfl
  | cons c m ih =>
    obtain ⟨k, v⟩ := c
    simp only [List.map_cons, List.mem_cons, not_or] at h
    rw [Memory.read_cons, if_neg (fun e => h.1 e.symm), ih h.2]

/-- A value that a read gives stands in a cell. -/
theorem Memory.mem_of_read {m : Memory} {i : Nat} {v : Word} (h : m.read i = some v) : (i, v) ∈ m := by
  induction m with
  | nil => simp at h
  | cons c m ih =>
    obtain ⟨k, w⟩ := c
    rw [Memory.read_cons] at h
    split at h
    · next e => cases e; cases h; exact List.mem_cons_self
    · exact List.mem_cons_of_mem _ (ih h)

/-- Keys that run on from `p` are read by position. -/
theorem Memory.read_zip_range' (l : List Word) (p i : Nat) (hi : i < l.length) :
    Memory.read ((List.range' p l.length).zip l) (p + i) = some l[i] := by
  induction l generalizing p i with
  | nil => simp at hi
  | cons w l ih =>
    rw [List.length_cons, List.range'_succ, List.zip_cons_cons, Memory.read_cons]
    cases i with
    | zero => simp
    | succ i =>
      have := ih (p + 1) i (by simpa using hi)
      rw [if_neg (by omega), show p + (i + 1) = p + 1 + i by omega, this, List.getElem_cons_succ]

@[simp] theorem Memory.keys_ofArray (a : Vector Word NN) :
    (Memory.ofArray a).map Prod.fst = List.range NN :=
  List.map_fst_zip (by simp)

@[simp] theorem Memory.values_ofArray (a : Vector Word NN) :
    (Memory.ofArray a).map Prod.snd = a.toList :=
  List.map_snd_zip (by simp)

/-- A word of the array is what its index reads as. -/
theorem Memory.read_ofArray (a : Vector Word NN) {i : Nat} (hi : i < NN) :
    (Memory.ofArray a).read i = some a[i] := by
  have h := Memory.read_zip_range' a.toList 0 i (by simpa using hi)
  simp only [Vector.length_toList, ← List.range_eq_range', Nat.zero_add, Vector.getElem_toList] at h
  exact h

theorem Memory.read_ofArray_outside (a : Vector Word NN) {i : Nat} (hi : NN ≤ i) :
    (Memory.ofArray a).read i = none :=
  Memory.read_eq_none (by simpa using hi)

/-- A store whose keys are 0 to 311 in order is in canonical form. -/
theorem Memory.wf_of_keys {m : Memory} (h : m.map Prod.fst = List.range NN) : m.wf := by
  refine ⟨h ▸ List.pairwise_lt_range, fun c hc => ?_⟩
  have : c.1 ∈ m.map Prod.fst := List.mem_map_of_mem hc
  rw [h] at this
  exact List.mem_range.mp this

theorem Memory.wf_ofArray (a : Vector Word NN) : (Memory.ofArray a).wf :=
  Memory.wf_of_keys (Memory.keys_ofArray a)

theorem Memory.wf_nil : Memory.wf [] := ⟨List.Pairwise.nil, by simp⟩

/-- In canonical form an index above 311 holds no value. -/
theorem Memory.read_outside {m : Memory} (h : m.wf) {i : Nat} (hi : NN ≤ i) : m.read i = none := by
  cases hr : m.read i with
  | none => rfl
  | some v => exact absurd (h.2 _ (Memory.mem_of_read hr)) (by simpa using hi)

/-- A store that is loaded whole is the store of the array it gives. -/
theorem Memory.loadArray_eq_next {m : Memory} {a : Vector Word NN} (h : m.loadArray = .next a) :
    m = Memory.ofArray a := by
  unfold Memory.loadArray at h
  split at h
  · next hk =>
    cases h
    rw [Memory.ofArray, ← hk]
    exact List.zip_of_prod rfl rfl
  · cases h

@[simp] theorem Memory.loadArray_ofArray (a : Vector Word NN) :
    (Memory.ofArray a).loadArray = .next a := by
  unfold Memory.loadArray
  rw [dif_pos (Memory.keys_ofArray a)]
  congr 1
  apply Vector.toList_inj.mp
  simp [Memory.values_ofArray]

/-- Loading the whole array faults nowhere, and refuses only for an absent word. -/
theorem Memory.loadArray_cases (m : Memory) :
    (∃ a, m.loadArray = .next a) ∨ m.loadArray = .refused .absentWord := by
  unfold Memory.loadArray
  split
  · exact .inl ⟨_, rfl⟩
  · exact .inr rfl

/-- Strictly rising numbers below `n` that hold every number below `n` are 0 to `n - 1` in order. -/
theorem eq_range_of_pairwise {l : List Nat} {n : Nat} (hp : l.Pairwise (· < ·)) (hlt : ∀ k ∈ l, k < n)
    (hall : ∀ k < n, k ∈ l) : l = List.range n := by
  refine List.Perm.eq_of_pairwise (le := (· < ·)) (fun a b _ _ h1 h2 => absurd h1 (by omega)) hp
    List.pairwise_lt_range ?_
  refine (List.perm_ext_iff_of_nodup (hp.imp (fun h => Nat.ne_of_lt h)) List.nodup_range).mpr fun k => ?_
  rw [List.mem_range]
  exact ⟨hlt k, hall k⟩

/-- In canonical form, loading the whole array succeeds exactly when every word holds a value. -/
theorem Memory.loadArray_next_iff {m : Memory} (h : m.wf) :
    (∃ a, m.loadArray = .next a) ↔ ∀ i < NN, (m.read i).isSome := by
  constructor
  · rintro ⟨a, ha⟩ i hi
    rw [Memory.loadArray_eq_next ha, Memory.read_ofArray a hi, Option.isSome_some]
  · intro hall
    have hk : m.map Prod.fst = List.range NN := by
      refine eq_range_of_pairwise h.1 ?_ ?_
      · intro k hk
        obtain ⟨c, hc, rfl⟩ := List.mem_map.mp hk
        exact h.2 c hc
      · intro k hk
        obtain ⟨v, hv⟩ := Option.isSome_iff_exists.mp (hall k hk)
        exact List.mem_map_of_mem (Memory.mem_of_read hv)
    unfold Memory.loadArray
    rw [dif_pos hk]
    exact ⟨_, rfl⟩

/-- What a word read can answer. -/
theorem Memory.readWord_cases (m : Memory) (i : Nat) :
    (∃ v, i < NN ∧ m.read i = some v ∧ m.readWord i = .next v) ∨
    (i < NN ∧ m.read i = none ∧ m.readWord i = .refused .absentWord) ∨
    (NN ≤ i ∧ m.readWord i = .fault .noSuchWord) := by
  unfold Memory.readWord
  by_cases hi : i < NN
  · rw [if_pos hi]
    cases hr : m.read i with
    | some v => exact .inl ⟨v, hi, rfl, rfl⟩
    | none => exact .inr (.inl ⟨hi, rfl, rfl⟩)
  · rw [if_neg hi]
    exact .inr (.inr ⟨Nat.le_of_not_lt hi, rfl⟩)

theorem Memory.readWord_of_read {m : Memory} {i : Nat} {v : Word} (hi : i < NN) (h : m.read i = some v) :
    m.readWord i = .next v := by
  rw [Memory.readWord, if_pos hi, h]

/-! The cells a seeding writes. -/

@[simp] theorem seedFrom_zero (p : Nat) (v : Word) : seedFrom 0 p v = [] := rfl

theorem seedFrom_succ (n p : Nat) (v : Word) :
    seedFrom (n + 1) p v = (p, seedWord (mix v) (mix (mix v)) p) :: seedFrom n (p + 1) (mix (mix v)) := rfl

theorem seedFrom_keys (n p : Nat) (v : Word) : (seedFrom n p v).map Prod.fst = List.range' p n := by
  induction n generalizing p v with
  | zero => rfl
  | succ n ih => rw [seedFrom_succ, List.map_cons, ih, List.range'_succ]

theorem seedFrom_length (n p : Nat) (v : Word) : (seedFrom n p v).length = n := by
  simpa using congrArg List.length (seedFrom_keys n p v)

/-- A seeding leaves a store in canonical form with every word present. -/
theorem seedFrom_all_keys (v : Word) : (seedFrom NN 0 v).map Prod.fst = List.range NN := by
  rw [seedFrom_keys, List.range_eq_range']

theorem seedFrom_wf (v : Word) : (seedFrom NN 0 v).wf := Memory.wf_of_keys (seedFrom_all_keys v)

theorem seedFrom_loads (v : Word) : ∃ a, (seedFrom NN 0 v).loadArray = .next a := by
  unfold Memory.loadArray
  rw [dif_pos (seedFrom_all_keys v)]
  exact ⟨_, rfl⟩

end Sys2Proof.Machine
end

