-- ==== Sys2Proof/Laws/Ops.lean ====
section
/-! SUPPORT. What the shared operations and the commands can answer, said once for each. -/

namespace Sys2Proof.Machine

section Sequencing

variable {α β : Type}

@[simp] theorem andThen_next (a : α) (f : α → Result β) : andThen (.next a) f = f a := rfl
@[simp] theorem andThen_fault (r : Fault) (f : α → Result β) : andThen (.fault r) f = .fault r := rfl
@[simp] theorem andThen_refused (r : Refusal) (f : α → Result β) : andThen (.refused r) f = .refused r := rfl

/-- A sequence answers next exactly when both parts do. -/
theorem andThen_eq_next {o : Result α} {f : α → Result β} {b : β} :
    andThen o f = .next b ↔ ∃ a, o = .next a ∧ f a = .next b := by
  cases o <;> simp

/-- A sequence faults exactly when one of its parts does. -/
theorem andThen_eq_fault {o : Result α} {f : α → Result β} {r : Fault} :
    andThen o f = .fault r ↔ o = .fault r ∨ ∃ a, o = .next a ∧ f a = .fault r := by
  cases o <;> simp

/-- A sequence refuses exactly when one of its parts does. -/
theorem andThen_eq_refused {o : Result α} {f : α → Result β} {r : Refusal} :
    andThen o f = .refused r ↔ o = .refused r ∨ ∃ a, o = .next a ∧ f a = .refused r := by
  cases o <;> simp

end Sequencing

theorem whenCursorInRange_of_le {s : State} (h : s.cursor.toNat ≤ 313) (f : State → Result State) :
    whenCursorInRange s f = f s := if_pos h

theorem whenCursorInRange_of_gt {s : State} (h : 313 < s.cursor.toNat) (f : State → Result State) :
    whenCursorInRange s f = .refused .cursorOutOfRange := if_neg (by omega)

theorem whenCursorInRange_eq_next {s t : State} {f : State → Result State} :
    whenCursorInRange s f = .next t ↔ s.cursor.toNat ≤ 313 ∧ f s = .next t := by
  unfold whenCursorInRange
  split <;> simp_all

@[simp] theorem unseeded_iff {c : Cursor} : unseeded c = true ↔ c = 313#9 := by
  simp [unseeded, unseededCursor]

@[simp] theorem needsAdvance_iff {c : Cursor} : needsAdvance c = true ↔ 312 ≤ c.toNat := by
  exact decide_eq_true_iff

/-- The generator state `ADVANCE` starts its 312 steps from: the default seeding when the block was never seeded. -/
theorem advanceState_unseeded {s : State} (h : s.cursor = 313#9) :
    advanceState s = advanceState (seedState defaultSeed s) := by
  have h1 : unseeded s.cursor = true := unseeded_iff.mpr h
  have h2 : unseeded (seedState defaultSeed s).cursor = false := rfl
  simp only [advanceState, h1, h2, if_true, Bool.false_eq_true, if_false]

/-- `ADVANCE` of a seeded block whose store holds the array `a`. -/
theorem advanceState_seeded {s : State} (h : s.cursor ≠ 313#9) :
    advanceState s = andThen s.words.loadArray fun a =>
      .next { s with words := Memory.ofArray (twistSteps a NN), cursor := 0#9 } := by
  have h1 : unseeded s.cursor = false := by
    rw [Bool.eq_false_iff]; exact fun e => h (unseeded_iff.mp e)
  simp only [advanceState, h1, Bool.false_eq_true, if_false]
  rfl

/-- Everything an advance can do: rewrite every word and clear the cursor, or refuse for an absent word. -/
theorem advanceState_cases (s : State) :
    (∃ a, advanceState s = .next { s with words := Memory.ofArray a, cursor := 0#9 }) ∨
    (s.cursor ≠ 313#9 ∧ s.words.loadArray = .refused .absentWord ∧
      advanceState s = .refused .absentWord) := by
  by_cases h : s.cursor = 313#9
  · obtain ⟨a, ha⟩ := seedFrom_loads defaultSeed
    refine .inl ⟨twistSteps a NN, ?_⟩
    rw [advanceState_unseeded h, advanceState_seeded (by rw [seedState_cursor]; decide), seedState_words, ha]
    rfl
  · rw [advanceState_seeded h]
    obtain ⟨a, ha⟩ | hr := Memory.loadArray_cases s.words
    · exact .inl ⟨twistSteps a NN, by rw [ha]; rfl⟩
    · exact .inr ⟨h, hr, by rw [hr]; rfl⟩

/-- Everything a draw's fetch can answer with. -/
theorem fetchWord_eq_next {s t : State} {y : Word} (h : fetchWord s = .next (t, y)) :
    ∃ s' x, (if needsAdvance s.cursor then advanceState s else .next s) = .next s' ∧
      s'.words.readWord s'.cursor.toNat = .next x ∧
      t = { s' with cursor := s'.cursor + 1#9 } ∧ y = temper x := by
  obtain ⟨s', hs, h⟩ := andThen_eq_next.mp h
  obtain ⟨x, hx, h⟩ := andThen_eq_next.mp h
  cases h
  exact ⟨s', x, hs, hx, rfl, rfl⟩

/-- A fetch with a word left: the store stays, the cursor moves on. -/
theorem fetchWord_word_left {s : State} {x : Word} (hc : s.cursor.toNat ≤ 311)
    (hx : s.words.read s.cursor.toNat = some x) :
    fetchWord s = .next ({ s with cursor := s.cursor + 1#9 }, temper x) := by
  have h : needsAdvance s.cursor = false := by
    rw [Bool.eq_false_iff]; exact fun e => absurd (needsAdvance_iff.mp e) (by omega)
  have hlt : s.cursor.toNat < NN := Nat.lt_of_le_of_lt hc (by decide)
  simp only [fetchWord, h, Bool.false_eq_true, if_false, andThen_next, cursorIndex,
    Memory.readWord_of_read hlt hx]

/-- A fetch with no word left is an advance and then a fetch. -/
theorem fetchWord_no_word_left {s : State} (hc : 312 ≤ s.cursor.toNat) :
    fetchWord s = andThen (advanceState s) fetchWord := by
  have h : needsAdvance s.cursor = true := needsAdvance_iff.mpr hc
  obtain ⟨a, ha⟩ | ⟨-, -, hr⟩ := advanceState_cases s
  · have h0 : needsAdvance (0#9) = false := by decide
    simp only [fetchWord, h, ha, if_true, andThen_next, h0, Bool.false_eq_true, if_false]
  · simp only [fetchWord, h, hr, if_true, andThen_refused]

/-- Whatever a draw converts to, it answers next exactly when its fetch does. -/
theorem draw_eq_next {f : Word → Word} {s t : State} :
    draw f s = .next t ↔ s.cursor.toNat ≤ 313 ∧
      ∃ s' y, fetchWord s = .next (s', y) ∧ t = answer (.data (f y)) s' := by
  simp only [draw, whenCursorInRange_eq_next, andThen_eq_next, Prod.exists, Host.Outcome.next.injEq,
    eq_comm (a := t)]

/-- A reserved opcode is exactly an opcode above 5 (R62, R64). -/
theorem reservedCommand_iff {c : CmdWord} : reservedCommand c = true ↔ 6 ≤ (opField c).toNat := by
  have hlt := (opField c).isLt
  unfold reservedCommand decode
  split <;>
    simp only [Instr.wellFormed, Bool.not_true, Bool.not_false, Bool.false_eq_true, true_iff, false_iff, imp_false] at * <;>
    omega

/-- A reserved opcode is refused in every state (R64). -/
theorem exec_of_reservedCommand {c : CmdWord} (h : reservedCommand c = true) (s : State) :
    exec (decode c) s = .refused .reservedOpcode := by
  unfold reservedCommand at h
  cases hd : decode c <;> simp [hd, Instr.wellFormed] at h <;> rfl

/-- The command that runs is the one in progress, and either the host waits or its opcode is reserved. -/
theorem fetchCommand_eq_some {s : State} {c : CmdWord} :
    fetchCommand s = some c ↔ s.cmd = some c ∧ (hostWaits s.host = true ∨ reservedCommand c = true) := by
  unfold fetchCommand
  cases s.cmd with
  | none => simp
  | some d =>
    dsimp only
    by_cases hb : (hostWaits s.host || reservedCommand d) = true
    · rw [if_pos hb]
      rw [Bool.or_eq_true] at hb
      constructor
      · rintro ⟨⟩
        exact ⟨rfl, hb⟩
      · exact fun h => h.1
    · rw [if_neg hb]
      rw [Bool.or_eq_true] at hb
      constructor
      · rintro ⟨⟩
      · rintro ⟨⟨⟩, h⟩
        exact absurd h hb

/-- The step of a block whose command is in progress while the host waits. -/
theorem step_of_command {s : State} {c : CmdWord} (h : s.cmd = some c) (hw : hostWaits s.host = true) :
    step s = exec (decode c) s := by
  rw [step, fetchCommand_eq_some.mpr ⟨h, .inl hw⟩]

/-- The step of a block with a reserved opcode in progress, whatever the host does next. -/
theorem step_of_reserved {s : State} {c : CmdWord} (h : s.cmd = some c) (hr : reservedCommand c = true) :
    step s = .refused .reservedOpcode := by
  rw [step, fetchCommand_eq_some.mpr ⟨h, .inr hr⟩]
  exact exec_of_reservedCommand hr s

/-- The step of a block that runs no command is the host's turn. -/
theorem step_of_no_command {s : State} (h : fetchCommand s = none) : step s = hostTurn s := by
  rw [step, h]

/-- A command the host issues is accepted exactly when the block is ready, the opcode is legal and the state has a
meaning. -/
theorem acceptCommand_eq_next {c : CmdWord} {rest : List HostAction} {s t : State} :
    acceptCommand c rest s = .next t ↔
      s.cmd = none ∧ s.rsp = none ∧ reservedCommand c = false ∧ s.cursor.toNat ≤ 313 ∧
        t = { s with cmd := some c, host := rest } := by
  unfold acceptCommand
  cases s.cmd <;> cases hr : s.rsp <;> cases reservedCommand c <;>
    simp [whenCursorInRange_eq_next, eq_comm (b := t), hr]

/-- Everything the host's turn can do. -/
theorem hostTurn_eq_next_cases {s t : State} (h : hostTurn s = .next t) :
    (s.host = [] ∧ s.cursor.toNat ≤ 313 ∧ t = s) ∨
    (∃ rest, s.host = .reset :: rest ∧ t = resetBlock rest) ∨
    (∃ c rest, s.host = .issue c :: rest ∧ s.cmd = none ∧ s.rsp = none ∧ reservedCommand c = false ∧
      s.cursor.toNat ≤ 313 ∧ t = { s with cmd := some c, host := rest }) ∨
    (∃ r rest, s.host = .take :: rest ∧ s.rsp = some r ∧ s.cursor.toNat ≤ 313 ∧
      t = { s with rsp := none, host := rest }) ∨
    (∃ rest, s.host = .take :: rest ∧ s.rsp = none ∧ s.cursor.toNat ≤ 313 ∧ t = s) := by
  unfold hostTurn at h
  split at h
  · next hh =>
    obtain ⟨hc, ht⟩ := whenCursorInRange_eq_next.mp h
    cases ht
    exact .inl ⟨hh, hc, rfl⟩
  · next rest hh =>
    cases h
    exact .inr (.inl ⟨rest, hh, rfl⟩)
  · next c rest hh => exact .inr (.inr (.inl ⟨c, rest, hh, acceptCommand_eq_next.mp h⟩))
  · next rest hh =>
    obtain ⟨hc, ht⟩ := whenCursorInRange_eq_next.mp h
    cases ht
    cases hr : s.rsp with
    | some r => exact .inr (.inr (.inr (.inl ⟨r, rest, hh, rfl, hc, rfl⟩)))
    | none => exact .inr (.inr (.inr (.inr ⟨rest, hh, rfl, hc, rfl⟩)))
  · cases h

/-- Everything a step can do: run one command while the host waits for it, or take one action of the host, with no
reserved opcode in progress. -/
theorem step_eq_next_cases {s t : State} (h : step s = .next t) :
    (∃ c, s.cmd = some c ∧ hostWaits s.host = true ∧ exec (decode c) s = .next t) ∨
    ((∀ c, s.cmd = some c → reservedCommand c = false) ∧ hostTurn s = .next t) := by
  cases hf : fetchCommand s with
  | some c =>
    obtain ⟨hc, hw | hr⟩ := fetchCommand_eq_some.mp hf
    · exact .inl ⟨c, hc, hw, by rwa [step_of_command hc hw] at h⟩
    · rw [step_of_reserved hc hr] at h
      cases h
  | none =>
    refine .inr ⟨fun c hc => ?_, by rwa [step_of_no_command hf] at h⟩
    rw [Bool.eq_false_iff]
    intro hr
    rw [fetchCommand_eq_some.mpr ⟨hc, .inr hr⟩] at hf
    cases hf

end Sys2Proof.Machine
end

