-- ==== Sys2Proof/Laws/Commands.lean ====
section
/-! SUPPORT. What each command can answer, the twist step word by word, and that every command keeps the store's
canonical form. -/

namespace Sys2Proof.Machine

/-! ## The arms -/

theorem exec_seed (v : Word) (s : State) :
    exec (.seed v) s = whenCursorInRange s fun s => .next (answer .noData (seedState v s)) := rfl

theorem exec_advance (a : Word) (s : State) :
    exec (.advance a) s = whenCursorInRange s fun s => andThen (advanceState s) fun s' => .next (answer .noData s') :=
  rfl

theorem exec_nextU64 (a : Word) (s : State) : exec (.nextU64 a) s = draw (fun x => x) s := rfl

theorem exec_nextRealClosed (a : Word) (s : State) :
    exec (.nextRealClosed a) s = draw Spec.closedPattern s := rfl

theorem exec_nextRealHalfOpen (a : Word) (s : State) :
    exec (.nextRealHalfOpen a) s = draw Spec.halfOpenPattern s := rfl

theorem exec_nextRealOpen (a : Word) (s : State) : exec (.nextRealOpen a) s = draw Spec.openPattern s := rfl

/-- Every output command is a draw with its own conversion. -/
theorem exec_of_isDraw {i : Instr} (h : isDraw i = true) : ∃ convert, ∀ s, exec i s = draw convert s := by
  cases i with
  | nextU64 a => exact ⟨_, exec_nextU64 a⟩
  | nextRealClosed a => exact ⟨_, exec_nextRealClosed a⟩
  | nextRealHalfOpen a => exact ⟨_, exec_nextRealHalfOpen a⟩
  | nextRealOpen a => exact ⟨_, exec_nextRealOpen a⟩
  | seed a => cases h
  | advance a => cases h
  | reserved6 a => cases h
  | reserved7 a => cases h

/-- Everything a command that answers can have done: a seeding, an advance, or a draw. -/
theorem exec_eq_next_cases {i : Instr} {s t : State} (h : exec i s = .next t) :
    s.cursor.toNat ≤ 313 ∧
    ((∃ v, i = .seed v ∧ t = answer .noData (seedState v s)) ∨
     (∃ a s', i = .advance a ∧ advanceState s = .next s' ∧ t = answer .noData s') ∨
     (isDraw i = true ∧ ∃ convert s' y, (∀ u, exec i u = draw convert u) ∧ fetchWord s = .next (s', y) ∧
        t = answer (.data (convert y)) s')) := by
  cases hd : isDraw i with
  | true =>
    obtain ⟨f, hf⟩ := exec_of_isDraw hd
    rw [hf] at h
    obtain ⟨hc, s', y, hy, ht⟩ := draw_eq_next.mp h
    exact ⟨hc, .inr (.inr ⟨rfl, f, s', y, hf, hy, ht⟩)⟩
  | false =>
    cases i with
    | seed v =>
      rw [exec_seed] at h
      obtain ⟨hc, ht⟩ := whenCursorInRange_eq_next.mp h
      cases ht
      exact ⟨hc, .inl ⟨v, rfl, rfl⟩⟩
    | advance a =>
      rw [exec_advance] at h
      obtain ⟨hc, ht⟩ := whenCursorInRange_eq_next.mp h
      obtain ⟨s', hs, ht⟩ := andThen_eq_next.mp ht
      cases ht
      exact ⟨hc, .inr (.inl ⟨a, s', rfl, hs, rfl⟩)⟩
    | nextU64 a => cases hd
    | nextRealClosed a => cases hd
    | nextRealHalfOpen a => cases hd
    | nextRealOpen a => cases hd
    | reserved6 a => cases h
    | reserved7 a => cases h

/-! ## The canonical form of the store -/

theorem advanceState_wf {s t : State} (h : advanceState s = .next t) : t.words.wf := by
  obtain ⟨a, ha⟩ | ⟨-, -, hr⟩ := advanceState_cases s
  · rw [ha] at h
    cases h
    exact Memory.wf_ofArray a
  · rw [hr] at h
    cases h

theorem fetchWord_wf {s t : State} {y : Word} (hs : s.words.wf) (h : fetchWord s = .next (t, y)) : t.words.wf := by
  obtain ⟨s', x, ha, -, rfl, -⟩ := fetchWord_eq_next h
  have hw : s'.words.wf := by
    split at ha
    · exact advanceState_wf ha
    · cases ha
      exact hs
  exact hw

/-- Every command keeps the store in canonical form. -/
theorem exec_keeps_wf {i : Instr} {s t : State} (hs : s.words.wf) (h : exec i s = .next t) : t.words.wf := by
  obtain ⟨-, ⟨v, -, rfl⟩ | ⟨a, s', -, ha, rfl⟩ | ⟨-, f, s', y, -, hy, rfl⟩⟩ := exec_eq_next_cases h
  · exact seedFrom_wf v
  · exact (advanceState_wf ha : s'.words.wf)
  · exact (fetchWord_wf hs hy : s'.words.wf)

/-! ## One twist step -/

/-- A twist step changes the word it is at and no other. -/
theorem twistStep_getElem (a : Vector Word NN) (i : Fin NN) {j : Nat} (hj : j < NN) :
    (twistStep a i)[j] =
      if i.val = j then
        twistF a[i] a[wrapIndex i 1] a[wrapIndex i m0] a[wrapIndex i m1] a[wrapIndex i m2]
      else a[j] :=
  Vector.getElem_set _ hj

theorem twistSteps_succ (a : Vector Word NN) (n : Nat) :
    twistSteps a (n + 1) = twistStep (twistSteps a n) (loopIndex n) := rfl

theorem loopIndex_val {n : Nat} (h : n < NN) : (loopIndex n).val = n := Nat.mod_eq_of_lt h

theorem wrapIndex_val (i : Fin NN) (k : Nat) : (wrapIndex i k).val = (i.val + k) % NN := rfl

/-! ## Rounding -/

/-- A value of at most 53 significant bits is its own rounding (R140). -/
theorem roundNearest_exact {q : Scaled} (h : q.mant < 2 ^ 53) : roundNearest q = q := if_pos h

/-- Rounding a longer value drops its low bits and takes the quotient or the next number (R142). -/
theorem roundNearest_cases {q : Scaled} (h : 2 ^ 53 ≤ q.mant) :
    ∃ sh, sh = q.mant.log2 + 1 - 53 ∧
      (roundNearest q = ⟨q.mant >>> sh, q.expo + sh⟩ ∨ roundNearest q = ⟨q.mant >>> sh + 1, q.expo + sh⟩) := by
  refine ⟨_, rfl, ?_⟩
  unfold roundNearest
  rw [if_neg (by omega)]
  dsimp only
  split
  · exact .inr rfl
  · exact .inl rfl

theorem toPattern_zero (e : Int) : toPattern ⟨0, e⟩ = 0#64 := rfl

/-! ## Runs -/

@[simp] theorem core_step (s : State) : Sys2Proof.core.step s = step s := rfl

/-- A run goes on after a step that answers. -/
theorem run_of_step_next {s t : State} (h : step s = .next t) (k : Nat) :
    Sys2Proof.core.run (k + 1) s = Sys2Proof.core.run k t := by
  rw [← core_step] at h
  simp only [Host.Core.run]
  rw [h]

/-- A run ends at the first step that is refused. -/
theorem run_of_step_refused {s : State} {r : Refusal} (h : step s = .refused r) (k : Nat) :
    Sys2Proof.core.run (k + 1) s = .refused r := by
  rw [← core_step] at h
  simp only [Host.Core.run]
  rw [h]

end Sys2Proof.Machine
end

