-- ==== Sys2Proof/Laws/PerInstr.lean ====
section
/-! SUPPORT. Statements made of every command as syntax, one lemma per constructor. -/

/-- The two fields of the command word of `i` are its opcode and its argument (R61). -/
def Sys2Proof.Laws.CommandFields.Statement (i : Sys2Proof.Instr) : Prop :=
  Sys2Proof.opField (Sys2Proof.encode i) = i.opcode ∧ Sys2Proof.argField (Sys2Proof.encode i) = i.arg

namespace Sys2Proof.Laws.CommandFields

/-- The fields of a word made of an opcode and an argument. -/
theorem of_append (op : BitVec 3) (a : Word) :
    opField (op ++ a) = op ∧ argField (op ++ a) = a := by
  constructor
  · ext i hi
    simp only [opField, BitVec.getElem_extractLsb', BitVec.getLsbD_append]
    rw [if_neg (by omega), Nat.add_sub_cancel_left, BitVec.getLsbD_eq_getElem hi]
  · ext i hi
    simp only [argField, BitVec.getElem_extractLsb', BitVec.getLsbD_append, Nat.zero_add]
    rw [if_pos hi, BitVec.getLsbD_eq_getElem hi]

theorem seed (a : Word) : Statement (.seed a) := of_append _ a
theorem nextU64 (a : Word) : Statement (.nextU64 a) := of_append _ a
theorem nextRealClosed (a : Word) : Statement (.nextRealClosed a) := of_append _ a
theorem nextRealHalfOpen (a : Word) : Statement (.nextRealHalfOpen a) := of_append _ a
theorem nextRealOpen (a : Word) : Statement (.nextRealOpen a) := of_append _ a
theorem advance (a : Word) : Statement (.advance a) := of_append _ a
theorem reserved6 (a : Word) : Statement (.reserved6 a) := of_append _ a
theorem reserved7 (a : Word) : Statement (.reserved7 a) := of_append _ a

end Sys2Proof.Laws.CommandFields
end

