-- ==== Sys2Proof/Tests/Slice0.lean ====
section
/-! SUPPORT. The model's own tests: the WellFormed smoke, decoding of written-out words, the spec's vectors (every
expected value is copied from spec/), and one witness for the hypotheses of each statement. -/

namespace Sys2Proof.Tests

open Sys2Proof Sys2Proof.Machine

/-! ## Well-formedness: the one check refuses each reserved opcode (R64) -/

theorem test_reserved6_is_ill_formed : (Instr.reserved6 0#64).wellFormed = false := by decide
theorem test_reserved7_is_ill_formed : (Instr.reserved7 0xFFFFFFFFFFFFFFFF#64).wellFormed = false := by decide
theorem test_seed_is_well_formed : (Instr.seed 0xFFFFFFFFFFFFFFFF#64).wellFormed = true := by decide

/-! ## Decoding: words written out from R61 and R62, opcode digit then the 16 digits of the argument -/

theorem test_decode_seed : decode 0x0000000003ADE68B1#67 = .seed 987654321#64 := by decide
theorem test_decode_nextU64 : decode 0x10000000000000000#67 = .nextU64 0#64 := by decide
theorem test_decode_nextRealClosed : decode 0x20000000000000001#67 = .nextRealClosed 1#64 := by decide
theorem test_decode_nextRealHalfOpen : decode 0x38000000000000000#67 = .nextRealHalfOpen 0x8000000000000000#64 := by
  decide
theorem test_decode_nextRealOpen : decode 0x40123456789ABCDEF#67 = .nextRealOpen 0x0123456789ABCDEF#64 := by decide
theorem test_decode_advance : decode 0x50000000000000000#67 = .advance 0#64 := by decide
theorem test_decode_reserved6 : decode 0x60000000000000000#67 = .reserved6 0#64 := by decide
theorem test_decode_reserved7 : decode 0x7FFFFFFFFFFFFFFFF#67 = .reserved7 0xFFFFFFFFFFFFFFFF#64 := by decide
theorem test_encode_seed : encode (.seed 987654321#64) = 0x0000000003ADE68B1#67 := by decide
theorem test_decode_refuses_a_68th_bit : decodeTableWord 72 0x80000000000000000 = none := by decide
theorem test_table_word_of_advance : decodeTableWord 72 0x50000000000000000 = some (.advance 0#64) := by decide

/-! ## Seeding: R80, R84, R88 -/

theorem test_mix_one : mix 1#64 = 0x0022CEF949F590E4#64 := by decide
theorem test_mix_wraps : mix 0xFFFFFFFFFFFFFFFF#64 = 0xFFDD3106B6301C2A#64 := by decide
theorem test_seedWord_carries_into_bit_32 :
    seedWord 0x00000000FFFFFFFF#64 0xFFFFFFFFFFFFFFFF#64 0 = 0x0000000100000314#64 := by decide
theorem test_seedWord_wraps_past_bit_63 :
    seedWord 0xFFFFFFFF00000000#64 0xFFFFFFFF00000000#64 311 = 0x000000000003C197#64 := by decide

/-! ## Twist: R100, R103 -/

theorem test_assemble : assemble 0x0123456789ABCDEF#64 0xFEDCBA9876543210#64 = 0x01234567F6543210#64 := by decide
theorem test_twistF_low_bits_of_next :
    twistF 0#64 0x000000007FFFFFFF#64 0#64 0#64 0#64 = 0xB3815B627037D1D0#64 := by decide
theorem test_twistF_general :
    twistF 0x0123456789ABCDEF#64 0xFEDCBA9876543210#64 0x1111111111111111#64 0x2222222222222222#64
      0x4444444444444444#64 = 0x77E6D5C48C5D6E7F#64 := by decide

/-! ## Tempering: R124 -/

theorem test_temper_all_ones : temper 0xFFFFFFFFFFFFFFFF#64 = 0xA67FFFC0014CFFFF#64 := by decide
theorem test_temper_general : temper 0x0123456789ABCDEF#64 = 0x9B5FEDC8C84E2BD6#64 := by decide

/-! ## Conversions: R149 -/

theorem test_closed_tie_to_one : Spec.closedPattern 0xFFFFFFFFFFFFFC00#64 = 0x3FF0000000000000#64 := by decide
theorem test_halfOpen_maximum : Spec.halfOpenPattern 0xFFFFFFFFFFFFFFFF#64 = 0x3FEFFFFFFFFFFFFF#64 := by decide
theorem test_halfOpen_one : Spec.halfOpenPattern 1#64 = 0x3BEFFFFFFFFFFFFF#64 := by decide
theorem test_open_minimum : Spec.openPattern 0#64 = 0x3CA0000000000000#64 := by decide
theorem test_open_general : Spec.openPattern 0x295556308D78EF21#64 = 0x3FC4AAAB1846BC74#64 := by decide
theorem test_tie_to_even : toPattern (u64ToF64 0x0020000000000003#64) = 0x4340000000000002#64 := by decide

/-! ## One step of each command -/

/-- The response an outcome leaves, if it has a next state. -/
def responseOf (o : Result State) : Option Response :=
  match o with
  | .next s => s.rsp
  | .fault _ => none
  | .refused _ => none

/-- The cursor an outcome leaves. -/
def cursorOf (o : Result State) : Option Cursor :=
  match o with
  | .next s => some s.cursor
  | .fault _ => none
  | .refused _ => none

/-- The value of one word after an outcome. -/
def wordOf (o : Result State) (i : Nat) : Option Word :=
  match o with
  | .next s => s.words.read i
  | .fault _ => none
  | .refused _ => none

/-- A block with the one word `x` at index `i` and the cursor there. -/
def oneWord (i : Nat) (x : Word) : State :=
  { State.reset with words := [(i, x)], cursor := BitVec.ofNat 9 i }

/-- A block whose words are all `x`. -/
def filled (x : Word) (c : Cursor) : State :=
  { State.reset with words := Memory.ofArray (Vector.replicate NN x), cursor := c }

/-- R88: word 1 after `SEED 0`. -/
theorem test_seed_word_1 : wordOf (exec (.seed 0#64) State.reset) 1 = some 0xC7376D2956522CB3#64 := by decide

/-- R85: the cursor after `SEED`, from a block in the middle of a generation. -/
theorem test_seed_cursor : cursorOf (exec (.seed 5#64) (oneWord 7 1#64)) = some 0#9 := by decide

/-- R128: the first draw after reset, the step from reset itself. -/
theorem test_first_draw_after_reset :
    responseOf (step (State.reset.withFetchWord 72 0x10000000000000000)) =
      some (.data 0xE51792C836912EA6#64) := by decide +kernel

/-- R120, R127: a draw of the last word of a generation leaves the cursor at 312. -/
theorem test_last_draw_of_a_generation :
    cursorOf (exec (.nextU64 9#64) (oneWord 311 1#64)) = some 312#9 := by decide

/-- 95_test_vectors.md section 4.2: `ADVANCE` from reset twists the default seed's words. -/
theorem test_advance_after_reset :
    wordOf (exec (.advance 0#64) State.reset) 0 = some 0xDB2DF942FE23513C#64 := by decide +kernel

/-- R111 and 95_test_vectors.md section 4.4: at index 88 the step reads the new word 0 (in place, not a snapshot). -/
theorem test_advance_is_in_place :
    wordOf (andThen (exec (.seed 0#64) State.reset) (exec (.advance 0#64))) 88 =
      some 0xB22BE6735040B311#64 := by decide +kernel

/-- R124, R143: the word 0 tempers to 0 and its closed result is +0.0. -/
theorem test_closed_draw_of_zero :
    responseOf (exec (.nextRealClosed 0#64) (oneWord 0 0#64)) = some (.data 0#64) := by decide

/-- 95_test_vectors.md section 4.5, draw 1 after `SEED 0`, whose word is R85's `words[0]`. -/
theorem test_closed_draw :
    responseOf (exec (.nextRealClosed 0#64) (oneWord 0 0x00000000B8E6BE3F#64)) =
      some (.data 0x3FEC310B95FE20F6#64) := by decide

theorem test_halfOpen_draw :
    responseOf (exec (.nextRealHalfOpen 0#64) (oneWord 0 0x00000000B8E6BE3F#64)) =
      some (.data 0x3FEC310B95FE20F5#64) := by decide

theorem test_open_draw :
    responseOf (exec (.nextRealOpen 0#64) (oneWord 0 0x00000000B8E6BE3F#64)) =
      some (.data 0x3FEC310B95FE20F5#64) := by decide

/-- P6, rows 1 and 2. -/
theorem test_reserved_refused :
    step (State.reset.withFetchWord 72 0x60000000000000000) = .refused .reservedOpcode := rfl

theorem test_reserved7_refused :
    step (State.reset.withFetchWord 72 0x7FFFFFFFFFFFFFFFF) = .refused .reservedOpcode := rfl

/-- P6, row 3: `NEXT_U64` issued while a `SEED` has not yet responded. -/
theorem test_second_command_refused :
    step { State.reset with cmd := some 0#67, host := [.issue 0x10000000000000000#67] } =
      .refused .concurrentAccess := rfl

/-- R64, R181: no outcome for a run that issues a reserved opcode, though the host asserts reset next. -/
theorem test_reserved_then_reset_refused :
    Sys2Proof.core.run 2 { State.reset with host := [.issue 0x60000000000000000#67, .reset] } =
      .refused .reservedOpcode := rfl

/-- R164, 93_implementation_defined.md U5: a block with the cursor above 313 is refused though it only idles. -/
theorem test_idle_cursor_out_of_range :
    step { State.reset with cursor := 314#9 } = .refused .cursorOutOfRange := rfl

/-! ## Witnesses: for each statement with hypotheses, states and operands that meet all of them -/

theorem witness_stepRunsTheCommandInProgress :
    (State.reset.withFetchWord 72 1).cmd = some 1#67 ∧
      hostWaits (State.reset.withFetchWord 72 1).host = true ∧
      (0x7FFFFFFFFFFFFFFFF : Nat) < 2 ^ 72 ∧ (0x7FFFFFFFFFFFFFFFF : Nat) < 2 ^ 67 := by decide

/-- A ready block whose host issues `SEED 5` and waits. -/
def issuing : State := { State.reset with host := [.issue 5#67, .take] }

theorem witness_issuedCommandIsAnsweredOnce :
    issuing.cmd = none ∧ issuing.rsp = none ∧ issuing.host = .issue 5#67 :: .take :: [] ∧
      ∃ t, exec (decode 5#67) { issuing with cmd := some 5#67, host := .take :: [] } = .next t :=
  ⟨rfl, rfl, rfl, _, rfl⟩

theorem witness_resetEvent :
    ∃ s : State, s.cmd = some 5#67 ∧ (decode 5#67).wellFormed = true ∧ s.host = .reset :: [] :=
  ⟨{ State.reset with cmd := some 5#67, host := [.reset] }, rfl, rfl, rfl⟩

/-- The first reserved opcode in progress. -/
theorem witness_resetEvent_reserved :
    ∃ s : State, s.cmd = some 0x60000000000000000#67 ∧ (decode 0x60000000000000000#67).wellFormed = false ∧
      s.host = .reset :: [] :=
  ⟨{ State.reset with cmd := some 0x60000000000000000#67, host := [.reset] }, rfl, rfl, rfl⟩

theorem witness_onlyResetUnseeds_unseeded :
    step State.reset = .next State.reset ∧ State.reset.cursor = 313#9 := ⟨rfl, rfl⟩

theorem witness_onlyResetUnseeds_reset :
    step { State.reset with cursor := 3#9, host := [.reset] } = .next State.reset := rfl

theorem witness_idleBlock :
    State.reset.cmd = none ∧ State.reset.host = [] ∧ State.reset.cursor.toNat ≤ 313 ∧
      ∃ s : State, s.cmd = none ∧ s.rsp = some .noData ∧ s.host = .take :: [] ∧ s.cursor.toNat = 313 :=
  ⟨rfl, rfl, by decide, { State.reset with rsp := some .noData, host := [.take] }, rfl, rfl, rfl, rfl⟩

/-- The cursor just above the sentinel, idle and waiting. -/
theorem witness_idleBlock_cursor :
    (∃ s : State, s.cmd = none ∧ s.host = [] ∧ s.cursor.toNat = 314) ∧
      ∃ s : State, s.cmd = none ∧ s.host = .take :: [] ∧ s.cursor.toNat = 314 :=
  ⟨⟨{ State.reset with cursor := 314#9 }, rfl, rfl, rfl⟩,
   ⟨{ State.reset with cursor := 314#9, host := [.take] }, rfl, rfl, rfl⟩⟩

theorem reset_inv : State.reset.Inv := by decide

theorem witness_stepKeepsSound : issuing.Inv ∧ ∃ t, step issuing = .next t := ⟨by decide, _, rfl⟩

theorem witness_lawfulHost : issuing.Safe :=
  ⟨by decide, ⟨fun _ h => absurd h (by simp [issuing]), by decide⟩⟩

/-- A reserved opcode in progress, and one issued to a ready block. -/
theorem witness_refusals_reserved :
    (∃ s : State, s.words.wf ∧ s.cmd = some 0x60000000000000000#67 ∧ (opField 0x60000000000000000#67).toNat = 6) ∧
    (∃ s : State, s.words.wf ∧ s.host = .issue 0x7FFFFFFFFFFFFFFFF#67 :: [] ∧ s.busy = false ∧
      (opField 0x7FFFFFFFFFFFFFFFF#67).toNat = 7) :=
  ⟨⟨{ State.reset with cmd := some 0x60000000000000000#67 }, by decide, rfl, by decide⟩,
   ⟨{ State.reset with host := [.issue 0x7FFFFFFFFFFFFFFFF#67] }, by decide, rfl, rfl, by decide⟩⟩

theorem witness_refusals_concurrent :
    ∃ s : State, s.words.wf ∧ fetchCommand s = none ∧ s.host = .issue 0#67 :: [] ∧ s.busy = true :=
  ⟨{ State.reset with rsp := some .noData, host := [.issue 0#67] }, by decide, rfl, rfl, rfl⟩

theorem witness_refusals_touch : ∃ s : State, s.words.wf ∧ fetchCommand s = none ∧ s.host = .touch :: [] :=
  ⟨{ State.reset with host := [.touch] }, by decide, rfl, rfl⟩

/-- The cursor just above the sentinel: a command with opcode 5, an idle block, a waiting host, and an issue. -/
theorem witness_refusals_cursor :
    (∃ s : State, s.words.wf ∧ s.cursor.toNat = 314 ∧ fetchCommand s = some 0x50000000000000000#67 ∧
      (opField 0x50000000000000000#67).toNat = 5) ∧
    (∃ s : State, s.words.wf ∧ s.cursor.toNat = 314 ∧ fetchCommand s = none ∧ s.host = []) ∧
    (∃ s : State, s.words.wf ∧ s.cursor.toNat = 314 ∧ fetchCommand s = none ∧ s.host = .take :: []) ∧
    (∃ s : State, s.words.wf ∧ s.cursor.toNat = 314 ∧ fetchCommand s = none ∧
      s.host = .issue 0x50000000000000000#67 :: [] ∧ s.busy = false) :=
  ⟨⟨{ State.reset with cursor := 314#9, cmd := some 0x50000000000000000#67 }, by decide, rfl, rfl, by decide⟩,
   ⟨{ State.reset with cursor := 314#9 }, by decide, rfl, rfl, rfl⟩,
   ⟨{ State.reset with cursor := 314#9, host := [.take] }, by decide, rfl, rfl, rfl⟩,
   ⟨{ State.reset with cursor := 314#9, host := [.issue 0x50000000000000000#67] }, by decide, rfl, rfl, rfl, rfl⟩⟩

/-- A draw at the last index whose word is absent; an exhausted and a seeded block with words absent. -/
theorem witness_refusals_absent :
    (∃ s : State, s.words.wf ∧ fetchCommand s = some 0x40000000000000000#67 ∧
      isDraw (decode 0x40000000000000000#67) = true ∧ s.cursor.toNat = 311 ∧ s.words.read 311 = none) ∧
    (∃ s : State, s.words.wf ∧ fetchCommand s = some 0x10000000000000000#67 ∧
      isDraw (decode 0x10000000000000000#67) = true ∧ s.cursor.toNat = 312 ∧ s.words.read 0 = none) ∧
    (∃ s : State, s.words.wf ∧ fetchCommand s = some 0x50000000000000000#67 ∧
      (opField 0x50000000000000000#67).toNat = 5 ∧ s.cursor.toNat = 312 ∧ s.words.read 311 = none) :=
  ⟨⟨{ State.reset with cursor := 311#9, cmd := some 0x40000000000000000#67 }, by decide, rfl, by decide, by decide, rfl⟩,
   ⟨{ State.reset with cursor := 312#9, cmd := some 0x10000000000000000#67 }, by decide, rfl, by decide, by decide, rfl⟩,
   ⟨{ State.reset with cursor := 312#9, cmd := some 0x50000000000000000#67 }, by decide, rfl, by decide, by decide, rfl⟩⟩

theorem witness_everyLegalCommand :
    State.reset.Inv ∧ (Instr.seed 1#64).wellFormed = true ∧ (Instr.nextU64 1#64).wellFormed = true ∧
      (Instr.nextRealClosed 1#64).wellFormed = true ∧ (Instr.nextRealHalfOpen 1#64).wellFormed = true ∧
      (Instr.nextRealOpen 1#64).wellFormed = true ∧ (Instr.advance 1#64).wellFormed = true := by decide

/-- A filled block meets the invariant wherever its cursor is, 0 to 312. -/
theorem filled_inv (x : Word) {c : Cursor} (hc : c.toNat ≤ 312) : (filled x c).Inv := by
  refine ⟨Memory.wf_ofArray _, Nat.le_succ_of_le hc, fun _ i hi => ?_, fun h => ?_, fun h => by cases h⟩
  · exact Option.isSome_iff_exists.mpr ⟨_, Memory.read_ofArray _ hi⟩
  · exact absurd (show c.toNat = 313 by rw [show c = 313#9 from h]; rfl) (by omega)

theorem witness_everyLegalCommand_seeded : (filled 7#64 312#9).Inv ∧ (filled 7#64 0#9).Inv :=
  ⟨filled_inv _ (by decide), filled_inv _ (by decide)⟩

theorem witness_commandFrame :
    (∃ t, exec (.nextRealOpen 1#64) (oneWord 311 1#64) = .next t) ∧ (oneWord 311 1#64).words.wf ∧
      isDraw (.nextRealOpen 1#64) = true ∧ (oneWord 311 1#64).cursor.toNat ≤ 311 :=
  ⟨⟨_, rfl⟩, by decide, rfl, by decide⟩

theorem witness_completedCommand : ∃ t, exec (.seed 1#64) (oneWord 3 1#64) = .next t := ⟨_, rfl⟩

theorem witness_sameGenerator :
    SameGenerator issuing { issuing with words := [(0, 5#64)] } ∧ (∃ t, Sys2Proof.core.run 2 issuing = .next t) ∧
      Sys2Proof.core.run 1 { State.reset with host := [.touch] } = .refused .concurrentAccess :=
  ⟨⟨rfl, fun h => absurd rfl h⟩, ⟨_, rfl⟩, rfl⟩

theorem witness_seedFills : State.reset.cursor.toNat ≤ 313 ∧ (filled 0#64 312#9).cursor.toNat ≤ 313 := by
  constructor <;> decide

theorem witness_twistShifts : (0 : Nat) < 64 ∧ (63 : Nat) < 64 := by decide

theorem witness_advanceInPlace :
    (filled 7#64 312#9).cursor.toNat ≤ 312 ∧
      (filled 7#64 312#9).words = Memory.ofArray (Vector.replicate NN 7#64) := ⟨by decide, rfl⟩

theorem witness_advanceInPlace_unseeded :
    State.reset.cursor = 313#9 ∧ ∃ old : Vector Word NN, ∀ (i : Nat) (h : i < NN),
      old[i] = Spec.seededWord 987654321#64 i :=
  ⟨rfl, Vector.ofFn fun i => Spec.seededWord 987654321#64 i, fun i h => by rw [Vector.getElem_ofFn]⟩

theorem witness_advanceUnseeded : State.reset.cursor = 313#9 := rfl

theorem witness_advanceForgets :
    (filled 7#64 312#9).cursor.toNat ≤ 312 ∧ (0#9 : Cursor).toNat ≤ 312 := ⟨by decide, by decide⟩

theorem witness_advanceIgnoresLowBits :
    (filled 7#64 0#9).cursor.toNat ≤ 312 ∧
      (0x000000007FFFFFFF#64 : Word) >>> 31 = (Vector.replicate NN (7#64 : Word))[0] >>> 31 :=
  ⟨by decide, by rw [Vector.getElem_replicate]; decide⟩

theorem witness_zeroArray :
    (filled 0#64 5#9).cursor.toNat ≤ 312 ∧
      (filled 0#64 5#9).words = Memory.ofArray (Vector.replicate NN 0#64) := ⟨by decide, rfl⟩

theorem witness_drawWithAWordLeft :
    (oneWord 311 9#64).cursor.toNat ≤ 311 ∧
      (oneWord 311 9#64).words.read (oneWord 311 9#64).cursor.toNat = some 9#64 ∧
      (oneWord 0 9#64).cursor.toNat ≤ 311 ∧
      (oneWord 0 9#64).words.read (oneWord 0 9#64).cursor.toNat = some 9#64 := by decide

theorem witness_drawWithNoWordLeft :
    isDraw (.nextU64 0#64) = true ∧ 312 ≤ (filled 7#64 312#9).cursor.toNat ∧ 312 ≤ State.reset.cursor.toNat :=
  ⟨rfl, by decide, by decide⟩

theorem witness_everyDraw :
    isDraw (.nextU64 0#64) = true ∧ isDraw (.nextRealOpen 0#64) = true ∧
      ∃ t, exec (.nextU64 0#64) (oneWord 0 9#64) = .next t := ⟨rfl, rfl, _, rfl⟩

theorem witness_streams : State.reset.cursor.toNat ≤ 313 ∧ State.reset.cursor = 313#9 ∧ (311 : Nat) < 312 := by decide

/-- 2^53 + 1 lies half-way between 2^53, which the rounding takes, and 2^53 + 2. -/
theorem witness_rounding :
    2 ^ 52 + 1 ≤ 2 ^ 53 ∧ roundNearest ⟨2 ^ 53 + 1, 0⟩ = ⟨2 ^ 52, 1⟩ ∧
      (Scaled.mk (2 ^ 52 + 1) 1).value ≠ (roundNearest ⟨2 ^ 53 + 1, 0⟩).value ∧
      |(roundNearest ⟨2 ^ 53 + 1, 0⟩).value - (Scaled.mk (2 ^ 53 + 1) 0).value| =
        |(Scaled.mk (2 ^ 52 + 1) 1).value - (Scaled.mk (2 ^ 53 + 1) 0).value| := by
  have h : roundNearest ⟨2 ^ 53 + 1, 0⟩ = ⟨2 ^ 52, 1⟩ := by decide
  rw [h]
  refine ⟨by decide, rfl, ?_, ?_⟩ <;> norm_num [Scaled.value]

theorem witness_closedOutput : (1#64 : Word) ≠ 0#64 := by decide

theorem witness_nonDecreasing : (0x7FFFFFFFFFFFFFFF#64 : Word) ≤ 0x8000000000000000#64 := by decide

theorem witness_ordinaryNumbers :
    (0x3BEFFFFFFFFFFFFF#64 : Word) = Spec.halfOpenPattern 1#64 ∧ (0x3BEFFFFFFFFFFFFF#64 : Word) ≠ 0#64 ∧
      (0#64 : Word) = Spec.closedPattern 0#64 := by decide

/-- Two words one rounding step apart that round to the same value 2^54, held as two scaled values. -/
theorem witness_dependOnTopBits :
    (0x003FFFFFFFFFFFFF#64 : Word) ≠ 0x0040000000000000#64 ∧
      (u64ToF64 0x003FFFFFFFFFFFFF#64).value = (u64ToF64 0x0040000000000000#64).value ∧
      (0#64 : Word) >>> 12 = 0xFFF#64 >>> 12 := by
  have h : u64ToF64 0x003FFFFFFFFFFFFF#64 = ⟨2 ^ 53, 1⟩ := by decide
  have h' : u64ToF64 0x0040000000000000#64 = ⟨2 ^ 52, 2⟩ := by decide
  rw [h, h']
  exact ⟨by decide, by norm_num [Scaled.value], by decide⟩

/-- A reserved opcode in progress with a reset to come, and one issued with a reset to come. -/
theorem witness_runOfAReservedOpcode :
    (decode 0x60000000000000000#67).wellFormed = false ∧
      (∃ s : State, s.cmd = some 0x60000000000000000#67 ∧ s.host = [.reset]) ∧
      ∃ s : State, s.cmd = none ∧ s.rsp = none ∧ s.host = .issue 0x60000000000000000#67 :: [.reset] :=
  ⟨by decide, ⟨{ State.reset with cmd := some 0x60000000000000000#67, host := [.reset] }, rfl, rfl⟩,
   ⟨{ State.reset with host := [.issue 0x60000000000000000#67, .reset] }, rfl, rfl, rfl⟩⟩

end Sys2Proof.Tests
end

/-! ## The step runs the command in progress -/

namespace Sys2Proof.Machine

/-- A block that was just given a command runs it in its next step, since its host waits for the response. -/
theorem step_presentCommand (c : CmdWord) (s : State) :
    step (presentCommand c s) = exec (decode c) (presentCommand c s) :=
  step_of_command (by simp) (by simp [hostWaits])

/-- A word that fits in the bits read is presented whole: no bit of it is cut off. -/
theorem State.withFetchWord_of_lt {nbits w : Nat} (hw : w < 2 ^ nbits) (s : State) :
    s.withFetchWord nbits w = presentCommand (BitVec.ofNat 67 w) s := by
  rw [State.withFetchWord, Nat.mod_eq_of_lt hw]

/-- Settles O6: the command in progress runs while the host waits, and a fetched word is the command in progress of a
waiting host. -/
theorem stepRunsTheCommandInProgress : Obligations.StepRunsTheCommandInProgress := by
  unfold Obligations.StepRunsTheCommandInProgress
  constructor
  · intro s c hc hw
    exact step_of_command hc hw
  · intro s nbits w hw _
    rw [State.withFetchWord_of_lt hw, step_presentCommand]

end Sys2Proof.Machine

/-! ## What a command that answers leaves behind

The facts about one command from which the invariant, the frame and the bound on the cursor follow. -/

namespace Sys2Proof.Machine

/-- An advance that answers writes an array over the whole store, sets the cursor to 0 and leaves the rest (R104). -/
theorem advanceState_eq_next {s t : State} (h : advanceState s = .next t) :
    ∃ a, t = { s with words := Memory.ofArray a, cursor := 0#9 } := by
  obtain ⟨a, ha⟩ | ⟨-, -, hr⟩ := advanceState_cases s
  · rw [ha] at h
    cases h
    exact ⟨a, rfl⟩
  · rw [hr] at h
    cases h

/-- A seeding leaves the store of a whole array (R85). -/
theorem seedFrom_eq_ofArray (v : Word) : ∃ a, seedFrom NN 0 v = Memory.ofArray a := by
  obtain ⟨a, ha⟩ := seedFrom_loads v
  exact ⟨a, Memory.loadArray_eq_next ha⟩

/-- A word that was read has an index below 312. -/
theorem Memory.lt_of_readWord {m : Memory} {i : Nat} {x : Word} (h : m.readWord i = .next x) : i < NN := by
  obtain ⟨_, hi, -, -⟩ | ⟨hi, -, -⟩ | ⟨-, hf⟩ := m.readWord_cases i
  · exact hi
  · exact hi
  · rw [hf] at h
    cases h

/-- Moving the cursor on from the index of a word keeps it at most 312: 9 bits do not wrap there (R120). -/
theorem cursor_add_one_le {c : Cursor} (h : c.toNat < NN) : (c + 1#9).toNat ≤ 312 := by
  have hlt : c.toNat < 312 := h
  bv_omega

/-- Before a fetch reads its word, the block is as it was when a word is left, and else advanced. -/
theorem fetchWord_prepares {s s' : State}
    (h : (if needsAdvance s.cursor then advanceState s else .next s) = .next s') :
    (s.cursor.toNat ≤ 311 ∧ s' = s) ∨
      (312 ≤ s.cursor.toNat ∧ ∃ a, s' = { s with words := Memory.ofArray a, cursor := 0#9 }) := by
  split at h
  · next hn => exact .inr ⟨needsAdvance_iff.mp hn, advanceState_eq_next h⟩
  · next hn =>
    cases h
    rw [needsAdvance_iff] at hn
    exact .inl ⟨by omega, rfl⟩

/-- What a fetch leaves behind (R120): the host's list, a cursor at most 312, and either the words it found, when one
was left, or a whole new array. -/
theorem fetchWord_effect {s t : State} {y : Word} (h : fetchWord s = .next (t, y)) :
    t.host = s.host ∧ t.cursor.toNat ≤ 312 ∧
      ((s.cursor.toNat ≤ 311 ∧ t.words = s.words) ∨
        (312 ≤ s.cursor.toNat ∧ ∃ a, t.words = Memory.ofArray a)) := by
  obtain ⟨s', x, hs', hx, rfl, -⟩ := fetchWord_eq_next h
  have hc := cursor_add_one_le (Memory.lt_of_readWord hx)
  obtain ⟨hle, rfl⟩ | ⟨hge, a, rfl⟩ := fetchWord_prepares hs'
  · exact ⟨rfl, hc, .inl ⟨hle, rfl⟩⟩
  · exact ⟨rfl, hc, .inr ⟨hge, a, rfl⟩⟩

/-- What a command that answers leaves behind: the host's list, no command in progress, a cursor at most 312, and the
words it found, for a draw with a word left, or else a whole new array (R23, R66, R85, R104, R120). -/
theorem exec_effect {i : Instr} {s t : State} (h : exec i s = .next t) :
    t.host = s.host ∧ t.cmd = none ∧ t.cursor.toNat ≤ 312 ∧
      ((isDraw i = true ∧ s.cursor.toNat ≤ 311 ∧ t.words = s.words) ∨
        ((isDraw i = true → 312 ≤ s.cursor.toNat) ∧ ∃ a, t.words = Memory.ofArray a)) := by
  obtain ⟨-, ⟨v, rfl, rfl⟩ | ⟨_, s', rfl, hs', rfl⟩ | ⟨hd, _, s', _, -, hs', rfl⟩⟩ := exec_eq_next_cases h
  · exact ⟨rfl, rfl, by simp, .inr ⟨(nomatch ·), seedFrom_eq_ofArray v⟩⟩
  · obtain ⟨a, rfl⟩ := advanceState_eq_next hs'
    exact ⟨rfl, rfl, by simp, .inr ⟨(nomatch ·), a, rfl⟩⟩
  · obtain ⟨hhost, hc, ⟨hle, hw⟩ | ⟨hge, hw⟩⟩ := fetchWord_effect hs'
    · exact ⟨hhost, rfl, hc, .inl ⟨hd, hle, hw⟩⟩
    · exact ⟨hhost, rfl, hc, .inr ⟨fun _ => hge, hw⟩⟩

theorem exec_cursor_le {i : Instr} {s t : State} (h : exec i s = .next t) : t.cursor.toNat ≤ 312 := by
  obtain ⟨-, -, hc, -⟩ := exec_effect h
  exact hc

/-- A cursor at most 312 is not the one of an unseeded block (R22). -/
theorem cursor_ne_unseeded_of_le {c : Cursor} (h : c.toNat ≤ 312) : c ≠ 313#9 := by
  rintro rfl
  exact absurd h (by decide)

/-- Settles O20: each of the six commands that can answer sets the cursor to 0 or moves it on from a word it read. -/
theorem completedCommandLeavesTheBlockSeeded : Obligations.CompletedCommandLeavesTheBlockSeeded := by
  unfold Obligations.CompletedCommandLeavesTheBlockSeeded
  intro i s t h
  exact exec_cursor_le h

/-- Settles O19: a new array, like a store in canonical form, holds nothing at an index above 311; with a word left a
draw writes no word. -/
theorem commandFrame : Obligations.CommandFrame := by
  unfold Obligations.CommandFrame
  intro i s t h
  obtain ⟨hhost, -, -, ⟨-, -, hw⟩ | ⟨hd, a, hw⟩⟩ := exec_effect h
  · exact ⟨hhost, fun _ _ _ => by rw [hw], fun _ _ _ => by rw [hw]⟩
  · refine ⟨hhost, fun hwf j hj => ?_, fun hdraw hle => ?_⟩
    · rw [hw, Memory.read_ofArray_outside a hj, Memory.read_outside hwf hj]
    · exact absurd (hd hdraw) (by omega)

/-- Settles O10: a command that answers leaves the cursor at most 312, and of the host's actions reset alone writes it. -/
theorem onlyResetUnseedsTheBlock : Obligations.OnlyResetUnseedsTheBlock := by
  unfold Obligations.OnlyResetUnseedsTheBlock
  intro s t h ht
  obtain ⟨c, -, -, he⟩ | ⟨-, hh⟩ := step_eq_next_cases h
  · exact absurd ht (cursor_ne_unseeded_of_le (exec_cursor_le he))
  · obtain ⟨-, -, rfl⟩ | ⟨rest, hr, -⟩ | ⟨_, _, -, -, -, -, -, rfl⟩ | ⟨_, _, -, -, -, rfl⟩ | ⟨_, -, -, -, rfl⟩ :=
      hostTurn_eq_next_cases hh
    · exact .inl ht
    · exact .inr ⟨rest, hr⟩
    · exact .inl ht
    · exact .inl ht
    · exact .inl ht

end Sys2Proof.Machine

/-! ## Reset and the invariant of the block -/

namespace Sys2Proof.Machine

/-- Reset with any host list: no word, cursor 313 and empty registers meet the invariant (R36). -/
theorem resetBlock_inv (rest : List HostAction) : (resetBlock rest).Inv := by
  refine ⟨Memory.wf_nil, by simp, fun h => ?_, fun _ => rfl, fun _ => rfl⟩
  exact absurd h (by simp)

/-- Settles O13: the reset state is what a reset leaves with no host action to follow. -/
theorem resetStateIsSound : Obligations.ResetStateIsSound := by
  unfold Obligations.ResetStateIsSound
  exact resetBlock_inv []

/-- Settles O8: the reset store lists no cell, so each index below 312 reads as absent. -/
theorem resetLeavesTheBlockUnseeded : Obligations.ResetLeavesTheBlockUnseeded := by
  unfold Obligations.ResetLeavesTheBlockUnseeded
  refine ⟨reset_cursor, Memory.read_nil, fun i hi => ?_, reset_cmd, reset_rsp⟩
  rw [Memory.readWord, if_pos hi]
  rfl

/-- A block with a cursor at most 312 and a whole array, and no command in progress, meets the invariant. -/
theorem inv_of_ofArray {t : State} {a : Vector Word NN} (hw : t.words = Memory.ofArray a) (hc : t.cursor.toNat ≤ 312)
    (hcmd : t.cmd = none) : t.Inv := by
  refine ⟨hw ▸ Memory.wf_ofArray a, by omega, fun _ i hi => ?_, fun hu => ?_, fun h => ?_⟩
  · rw [hw, Memory.read_ofArray a hi, Option.isSome_some]
  · exact absurd hu (cursor_ne_unseeded_of_le hc)
  · rw [hcmd] at h
    cases h

/-- Every command that answers keeps the invariant (R22, R23, R34). -/
theorem exec_keeps_inv {i : Instr} {s t : State} (hs : s.Inv) (h : exec i s = .next t) : t.Inv := by
  obtain ⟨-, hcmd, hc, ⟨-, hle, hw⟩ | ⟨-, a, hw⟩⟩ := exec_effect h
  · obtain ⟨hwf, -, hall, -, -⟩ := hs
    refine ⟨hw ▸ hwf, by omega, fun _ => hw ▸ hall (by omega), fun hu => ?_, fun hsome => ?_⟩
    · exact absurd hu (cursor_ne_unseeded_of_le hc)
    · rw [hcmd] at hsome
      cases hsome
  · exact inv_of_ofArray hw hc hcmd

/-- Every action of the host keeps the invariant: only reset writes the generator state, a command is accepted with no
response waiting, and a response taken is gone (R69, R172, R180). -/
theorem hostTurn_keeps_inv {s t : State} (hs : s.Inv) (h : hostTurn s = .next t) : t.Inv := by
  have ⟨hwf, hc, hall, hnone, _⟩ := hs
  obtain ⟨-, -, rfl⟩ | ⟨rest, -, rfl⟩ | ⟨_, _, -, -, hrsp, -, -, rfl⟩ | ⟨_, _, -, -, -, rfl⟩ | ⟨_, -, -, -, rfl⟩ :=
    hostTurn_eq_next_cases h
  · exact hs
  · exact resetBlock_inv rest
  · exact ⟨hwf, hc, hall, hnone, fun _ => hrsp⟩
  · exact ⟨hwf, hc, hall, hnone, fun _ => rfl⟩
  · exact hs

/-- Settles O12: a step is a command or the host's turn, and each keeps the invariant. -/
theorem stepKeepsTheBlockSound : Obligations.StepKeepsTheBlockSound := by
  unfold Obligations.StepKeepsTheBlockSound
  intro s t hs h
  obtain ⟨c, -, -, he⟩ | ⟨-, hh⟩ := step_eq_next_cases h
  · exact exec_keeps_inv hs he
  · exact hostTurn_keeps_inv hs hh

end Sys2Proof.Machine

/-! ## Blocks in the same generator state behave the same (R35)

Two such blocks are equal, or both are unseeded and differ in their words alone. No command of an unseeded block reads
a word, so it answers the same for both; the host's turn reads none either, and it keeps the two blocks alike. -/

namespace Sys2Proof.Machine

/-- Two blocks in the same generator state, with the same registers and the same host. -/
def SameBlock (s t : State) : Prop :=
  SameGenerator s t ∧ s.cmd = t.cmd ∧ s.rsp = t.rsp ∧ s.host = t.host

theorem SameBlock.refl (s : State) : SameBlock s s := ⟨⟨rfl, fun _ => rfl⟩, rfl, rfl, rfl⟩

theorem sameBlock_of_unseeded {s : State} (h : s.cursor = 313#9) (w : Memory) :
    SameBlock s { s with words := w } := ⟨⟨rfl, fun hne => absurd h hne⟩, rfl, rfl, rfl⟩

/-- Blocks that are the same to the spec are equal, or unseeded and equal but for their words. -/
theorem SameBlock.eq_or_unseeded {s t : State} (h : SameBlock s t) :
    s = t ∨ s.cursor = 313#9 ∧ ∃ w, t = { s with words := w } := by
  obtain ⟨words, cursor, cmd, rsp, host⟩ := s
  obtain ⟨⟨hcursor, hwords⟩, hcmd, hrsp, hhost⟩ := h
  dsimp only at hcursor hwords hcmd hrsp hhost
  subst hcursor hcmd hrsp hhost
  by_cases hu : t.cursor = 313#9
  · exact .inr ⟨hu, t.words, rfl⟩
  · rw [hwords hu]
    exact .inl rfl

section Unseeded

variable {s : State} (hs : s.cursor = 313#9) (w : Memory)

include hs

theorem advanceState_unseeded_words : advanceState { s with words := w } = advanceState s := by
  rw [advanceState_unseeded (s := { s with words := w }) hs, advanceState_unseeded hs]
  rfl

theorem fetchWord_unseeded_words : fetchWord { s with words := w } = fetchWord s := by
  have hge : 312 ≤ s.cursor.toNat := by rw [hs]; decide
  rw [fetchWord_no_word_left (s := { s with words := w }) hge, fetchWord_no_word_left hge,
    advanceState_unseeded_words hs]

/-- No command of an unseeded block depends on the words: it seeds first, or it is a seeding, or it is refused. -/
theorem exec_unseeded_words (i : Instr) : exec i { s with words := w } = exec i s := by
  have hle : s.cursor.toNat ≤ 313 := by rw [hs]; decide
  have hguard (f : State → Result State) : whenCursorInRange { s with words := w } f = f { s with words := w } :=
    whenCursorInRange_of_le (s := { s with words := w }) hle f
  have hdraw (f : Word → Word) : draw f { s with words := w } = draw f s := by
    rw [draw, draw, hguard, whenCursorInRange_of_le hle, fetchWord_unseeded_words hs]
  cases i with
  | seed v => rw [exec_seed, exec_seed, hguard, whenCursorInRange_of_le hle]; rfl
  | advance a =>
    rw [exec_advance, exec_advance, hguard, whenCursorInRange_of_le hle, advanceState_unseeded_words hs]
  | nextU64 a => rw [exec_nextU64, exec_nextU64, hdraw]
  | nextRealClosed a => rw [exec_nextRealClosed, exec_nextRealClosed, hdraw]
  | nextRealHalfOpen a => rw [exec_nextRealHalfOpen, exec_nextRealHalfOpen, hdraw]
  | nextRealOpen a => rw [exec_nextRealOpen, exec_nextRealOpen, hdraw]
  | reserved6 _ => rfl
  | reserved7 _ => rfl

end Unseeded

theorem SameBlock.exec_eq {s t : State} (h : SameBlock s t) (i : Instr) : exec i s = exec i t := by
  obtain rfl | ⟨hs, w, rfl⟩ := h.eq_or_unseeded
  · rfl
  · exact (exec_unseeded_words hs w i).symm

/-- Two operations answer alike: with the same outcome, or each with a next state, and these are the same block. -/
def AnswerAlike (o p : Result State) : Prop :=
  o = p ∨ ∃ s t, o = .next s ∧ p = .next t ∧ SameBlock s t

/-- The host's turn of an unseeded block looks at the registers and the host alone, and passes the words on. -/
theorem hostTurn_unseeded_words {s : State} (hs : s.cursor = 313#9) (w : Memory) :
    AnswerAlike (hostTurn s) (hostTurn { s with words := w }) := by
  obtain ⟨words, cursor, cmd, rsp, host⟩ := s
  cases hs
  cases host with
  | nil => exact .inr ⟨_, _, rfl, rfl, sameBlock_of_unseeded rfl w⟩
  | cons action rest =>
    cases action with
    | reset => exact .inl rfl
    | touch => exact .inl rfl
    | take =>
      cases rsp with
      | none => exact .inr ⟨_, _, rfl, rfl, sameBlock_of_unseeded rfl w⟩
      | some r => exact .inr ⟨_, _, rfl, rfl, sameBlock_of_unseeded rfl w⟩
    | issue c =>
      simp only [hostTurn, acceptCommand]
      split
      · exact .inl rfl
      · split
        · exact .inl rfl
        · exact .inr ⟨_, _, rfl, rfl, sameBlock_of_unseeded rfl w⟩

theorem SameBlock.hostTurn_alike {s t : State} (h : SameBlock s t) : AnswerAlike (hostTurn s) (hostTurn t) := by
  obtain rfl | ⟨hs, w, rfl⟩ := h.eq_or_unseeded
  · exact .inl rfl
  · exact hostTurn_unseeded_words hs w

theorem SameBlock.fetchCommand_eq {s t : State} (h : SameBlock s t) : fetchCommand s = fetchCommand t := by
  obtain ⟨-, hcmd, -, hhost⟩ := h
  rw [fetchCommand, fetchCommand, hcmd, hhost]

/-- The commuting diagram of one step. -/
theorem SameBlock.step_alike {s t : State} (h : SameBlock s t) : AnswerAlike (step s) (step t) := by
  have hf := h.fetchCommand_eq
  cases hs : fetchCommand s with
  | some c =>
    rw [step, step, ← hf, hs]
    exact .inl (h.exec_eq (decode c))
  | none =>
    rw [step_of_no_command hs, step_of_no_command (hf ▸ hs)]
    exact h.hostTurn_alike

/-- A run is its first step and then the run of the steps that are left. -/
theorem run_succ (k : Nat) (s : State) :
    Sys2Proof.core.run (k + 1) s = andThen (step s) (Sys2Proof.core.run k) := by
  rw [← core_step]
  simp only [Host.Core.run]
  cases Sys2Proof.core.step s <;> rfl

/-- The commuting diagram of a run of any length. -/
theorem SameBlock.run_alike {s t : State} (h : SameBlock s t) (k : Nat) :
    AnswerAlike (Sys2Proof.core.run k s) (Sys2Proof.core.run k t) := by
  induction k generalizing s t with
  | zero => exact .inr ⟨s, t, rfl, rfl, h⟩
  | succ k ih =>
    rw [run_succ, run_succ]
    obtain he | ⟨s', t', hs', ht', h'⟩ := h.step_alike
    · exact .inl (by rw [he])
    · rw [hs', ht']
      exact ih h'

/-- Where one of two alike operations has a next state, the other has one that is the same block. -/
theorem AnswerAlike.next {o p : Result State} {s : State} (h : AnswerAlike o p) (ho : o = .next s) :
    ∃ t, p = .next t ∧ SameBlock s t := by
  subst ho
  obtain rfl | ⟨_, t, ⟨⟩, hp, hst⟩ := h
  · exact ⟨s, rfl, SameBlock.refl s⟩
  · exact ⟨t, hp, hst⟩

/-- Where one of two alike operations is refused, so is the other, for the same reason. -/
theorem AnswerAlike.refused {o p : Result State} {r : Refusal} (h : AnswerAlike o p) (ho : o = .refused r) :
    p = .refused r := by
  subst ho
  obtain rfl | ⟨_, _, ⟨⟩, -, -⟩ := h
  rfl

/-- Settles O22, by a simulation: being the same block holds at the start, every command answers the same for both
blocks, and every step of a run keeps them the same block. -/
theorem sameGeneratorStateSameBehaviour : Obligations.SameGeneratorStateSameBehaviour := by
  unfold Obligations.SameGeneratorStateSameBehaviour
  intro s t hgen hcmd hrsp hhost
  have h : SameBlock s t := ⟨hgen, hcmd, hrsp, hhost⟩
  exact ⟨h.exec_eq, fun k => ⟨fun _ => (h.run_alike k).next, fun _ => (h.run_alike k).refused⟩⟩

end Sys2Proof.Machine

/-! ## The command word and its two fields (R61, R63)

`decode` reads the two fields of a word and `encode` joins the two of a command, so each round trip is a statement about
the fields alone. -/

namespace Sys2Proof

theorem opField_append (op : BitVec 3) (a : Word) : opField (op ++ a) = op :=
  (Laws.CommandFields.of_append op a).left

theorem argField_append (op : BitVec 3) (a : Word) : argField (op ++ a) = a :=
  (Laws.CommandFields.of_append op a).right

/-- A command word is its two fields, bits 66:64 and bits 63:0: there is no bit besides. -/
theorem opField_append_argField (c : CmdWord) : opField c ++ argField c = c :=
  BitVec.extractLsb'_append_extractLsb'

/-- A word with the two fields of a command decodes to that command. -/
theorem decode_of_fields {c : CmdWord} {i : Instr} (hop : opField c = i.opcode) (harg : argField c = i.arg) :
    decode c = i := by
  rw [decode, hop, harg]
  cases i <;> rfl

@[simp] theorem opcode_decode (c : CmdWord) : (decode c).opcode = opField c := by
  have hlt := (opField c).isLt
  unfold decode
  split <;> simp only [Instr.opcode, imp_false] at * <;> bv_omega

@[simp] theorem arg_decode (c : CmdWord) : (decode c).arg = argField c := by
  unfold decode
  split <;> rfl

/-- Settles O1: the fields of a command's word are its opcode and its argument, and these pick the command. -/
theorem decodeOfEncodeIsTheCommand : Obligations.DecodeOfEncodeIsTheCommand := by
  unfold Obligations.DecodeOfEncodeIsTheCommand
  intro i
  exact decode_of_fields (opField_append i.opcode i.arg) (argField_append i.opcode i.arg)

/-- Settles O2: decoding keeps both fields, and a word is its two fields. -/
theorem encodeOfDecodeIsTheWord : Obligations.EncodeOfDecodeIsTheWord := by
  unfold Obligations.EncodeOfDecodeIsTheWord
  intro c
  rw [encode, opcode_decode, arg_decode, opField_append_argField]

end Sys2Proof

/-! ## The opcode map (R62)

Each row of the table belongs to one opcode; a word matches the row, and decodes to a command with the row's mnemonic,
exactly when its opcode field is that opcode. -/

namespace Sys2Proof

/-- The row of one opcode: its mask covers the opcode field, its pattern is the opcode above a zero argument, its
mnemonic is that of the command with a zero argument. -/
def rowOf (op : BitVec 3) : OpcodeRow := ⟨(decode (op ++ 0#64)).mnemonic, op ++ 0#64, 7#3 ++ 0#64⟩

/-- The table as R62 writes it lists the rows of the opcodes 0 to 7. -/
theorem opcodeTable_eq_map_rowOf : opcodeTable = (List.range 8).map fun n => rowOf (BitVec.ofNat 3 n) := by decide

theorem exists_rowOf_of_mem {r : OpcodeRow} (h : r ∈ opcodeTable) : ∃ op, r = rowOf op := by
  rw [opcodeTable_eq_map_rowOf] at h
  obtain ⟨n, -, rfl⟩ := List.mem_map.mp h
  exact ⟨BitVec.ofNat 3 n, rfl⟩

/-- Masking a word with the mask of a row clears its argument and keeps its opcode. -/
theorem and_opcodeMask (c : CmdWord) : c &&& (7#3 ++ 0#64) = opField c ++ 0#64 := by
  calc c &&& (7#3 ++ 0#64) = (opField c ++ argField c) &&& (7#3 ++ 0#64) := by rw [opField_append_argField]
    _ = (opField c &&& 7#3) ++ (argField c &&& 0#64) := BitVec.and_append
    _ = opField c ++ 0#64 := by rw [show 7#3 = BitVec.allOnes 3 from rfl, BitVec.and_allOnes, BitVec.and_zero]

theorem and_mask_rowOf_eq_pattern_iff {c : CmdWord} {op : BitVec 3} :
    c &&& (rowOf op).mask = (rowOf op).pattern ↔ opField c = op := by
  rw [rowOf, and_opcodeMask, BitVec.append_left_inj]

/-- The mnemonic of a decoded word depends on its opcode field alone. -/
theorem mnemonic_decode_congr {c d : CmdWord} (h : opField c = opField d) :
    (decode c).mnemonic = (decode d).mnemonic := by
  unfold decode
  rw [h]
  split <;> rfl

/-- No two rows of the map share a mnemonic. -/
theorem mnemonic_rowOf_injective : ∀ p q : BitVec 3, (rowOf p).mnemonic = (rowOf q).mnemonic → p = q := by decide

theorem mnemonic_decode_eq_rowOf_iff {c : CmdWord} {op : BitVec 3} :
    (decode c).mnemonic = (rowOf op).mnemonic ↔ opField c = op := by
  have hc : (decode c).mnemonic = (rowOf (opField c)).mnemonic :=
    mnemonic_decode_congr (opField_append (opField c) 0#64).symm
  rw [hc]
  exact ⟨mnemonic_rowOf_injective _ _, congrArg fun op => (rowOf op).mnemonic⟩

/-- Settles O3: both sides say that the opcode field of the word is the opcode of the row. -/
theorem opcodeMapSelectsTheDecodedRow : Obligations.OpcodeMapSelectsTheDecodedRow := by
  unfold Obligations.OpcodeMapSelectsTheDecodedRow
  intro c r hr
  obtain ⟨op, rfl⟩ := exists_rowOf_of_mem hr
  rw [and_mask_rowOf_eq_pattern_iff, mnemonic_decode_eq_rowOf_iff]

end Sys2Proof

/-! ## Legal and reserved commands, and the argument (R63, R64, R65) -/

namespace Sys2Proof.Machine

/-- The legal words are those whose opcode is not reserved. -/
theorem wellFormed_iff_reservedCommand {c : CmdWord} : (decode c).wellFormed = true ↔ reservedCommand c = false := by
  simp [reservedCommand]

theorem decodeBits_of_lt {bits : Nat} (h : bits < 2 ^ 67) : decodeBits bits = .ok (decode (BitVec.ofNat 67 bits)) :=
  if_pos h

theorem decodeBits_of_le {bits : Nat} (h : 2 ^ 67 ≤ bits) : decodeBits bits = .error .widerThanCmd :=
  if_neg (Nat.not_lt.mpr h)

/-- Settles O4: the reserved opcodes are those above 5, and the decoder tests the width before it decodes. -/
theorem legalWordsAreOpcodesZeroToFive : Obligations.LegalWordsAreOpcodesZeroToFive := by
  unfold Obligations.LegalWordsAreOpcodesZeroToFive
  refine ⟨fun c => ?_, fun bits => ⟨fun h => ?_, decodeBits_of_le⟩⟩
  · rw [wellFormed_iff_reservedCommand, Bool.eq_false_iff, ne_eq, reservedCommand_iff]
    omega
  · by_contra hlt
    rw [decodeBits_of_lt (Nat.lt_of_not_le hlt)] at h
    cases h

theorem exec_reserved6 (a : Word) (s : State) : exec (.reserved6 a) s = .refused .reservedOpcode := rfl

theorem exec_reserved7 (a : Word) (s : State) : exec (.reserved7 a) s = .refused .reservedOpcode := rfl

/-- Settles O16: neither arm looks at the argument or the state. -/
theorem reservedOpcodesAreRefused : Obligations.ReservedOpcodesAreRefused := by
  unfold Obligations.ReservedOpcodesAreRefused
  intro arg s
  exact ⟨exec_reserved6 arg s, exec_reserved7 arg s⟩

/-- Settles O21: the arms of the draws and of the advance drop the argument, and every row has the mask of its opcode. -/
theorem onlySeedUsesItsArgument : Obligations.OnlySeedUsesItsArgument := by
  unfold Obligations.OnlySeedUsesItsArgument
  refine ⟨fun a s hc => ?_, fun a b s => ⟨?_, ?_, ?_, ?_, ?_⟩, fun a => ⟨rfl, rfl, rfl, rfl, rfl, rfl⟩, fun r hr => ?_⟩
  · rw [exec_seed, whenCursorInRange_of_le hc]
  · rw [exec_nextU64, exec_nextU64]
  · rw [exec_nextRealClosed, exec_nextRealClosed]
  · rw [exec_nextRealHalfOpen, exec_nextRealHalfOpen]
  · rw [exec_nextRealOpen, exec_nextRealOpen]
  · rw [exec_advance, exec_advance]
  · obtain ⟨op, rfl⟩ := exists_rowOf_of_mem hr
    rfl

end Sys2Proof.Machine

/-! ## A command from its issue to its response (R64, R69) -/

namespace Sys2Proof.Machine

/-- With the command register empty the step is the host's. -/
theorem step_of_cmd_none {s : State} (h : s.cmd = none) : step s = hostTurn s :=
  step_of_no_command (by rw [fetchCommand, h])

/-- The step of a block with no command in progress whose host issues one. -/
theorem step_issue {s : State} {c : CmdWord} {rest : List HostAction} (hcmd : s.cmd = none)
    (hhost : s.host = .issue c :: rest) : step s = acceptCommand c rest s := by
  rw [step_of_cmd_none hcmd, hostTurn, hhost]

/-- The step of a block that holds a response while its host waits to take it. -/
theorem step_take {s : State} {r : Response} {rest : List HostAction} (hcmd : s.cmd = none) (hrsp : s.rsp = some r)
    (hc : s.cursor.toNat ≤ 313) (hhost : s.host = .take :: rest) :
    step s = .next { s with rsp := none, host := rest } := by
  rw [step_of_cmd_none hcmd, hostTurn, hhost]
  dsimp only
  rw [whenCursorInRange_of_le hc, takeResponse, hrsp, Option.isSome_some, if_pos rfl]

/-- A reserved opcode is refused in the step in which it is issued to a ready block. -/
theorem step_issue_reserved {s : State} {c : CmdWord} {rest : List HostAction} (hcmd : s.cmd = none)
    (hrsp : s.rsp = none) (hhost : s.host = .issue c :: rest) (hr : reservedCommand c = true) :
    step s = .refused .reservedOpcode := by
  rw [step_issue hcmd hhost, acceptCommand, hcmd, hrsp, if_neg (by simp), if_pos hr]

/-- A command that answers holds its response. -/
theorem exec_rsp {i : Instr} {s t : State} (h : exec i s = .next t) : ∃ r, t.rsp = some r := by
  obtain ⟨-, ⟨v, -, rfl⟩ | ⟨_, s', -, -, rfl⟩ | ⟨-, f, s', y, -, -, rfl⟩⟩ := exec_eq_next_cases h
  · exact ⟨.noData, rfl⟩
  · exact ⟨.noData, rfl⟩
  · exact ⟨.data (f y), rfl⟩

/-- A command that can answer in some state has a legal opcode. -/
theorem reservedCommand_of_exec_next {c : CmdWord} {s t : State} (h : exec (decode c) s = .next t) :
    reservedCommand c = false := by
  rw [Bool.eq_false_iff]
  intro hr
  rw [exec_of_reservedCommand hr] at h
  cases h

/-- Settles O7: the three steps are the accepted issue, the execution, and the take of the response it left. -/
theorem issuedCommandIsAnsweredOnce : Obligations.IssuedCommandIsAnsweredOnce := by
  unfold Obligations.IssuedCommandIsAnsweredOnce
  intro s t c rest hcmd hrsp hhost hexec
  obtain ⟨hle, -⟩ := exec_eq_next_cases hexec
  obtain ⟨hthost, htcmd, htc, -⟩ := exec_effect hexec
  obtain ⟨r, htrsp⟩ := exec_rsp hexec
  have hissue : step s = .next { s with cmd := some c, host := .take :: rest } := by
    rw [step_issue hcmd hhost]
    exact acceptCommand_eq_next.mpr ⟨hcmd, hrsp, reservedCommand_of_exec_next hexec, hle, rfl⟩
  have hrun : step { s with cmd := some c, host := .take :: rest } = .next t := by
    rw [step_of_command rfl rfl, hexec]
  have htake : step t = .next { t with rsp := none, host := rest } :=
    step_take htcmd htrsp (by omega) hthost
  refine ⟨r, htrsp, htcmd, hthost, ?_, ?_⟩
  · rw [run_of_step_next hissue, run_of_step_next hrun]
    rfl
  · rw [run_of_step_next hissue, run_of_step_next hrun, run_of_step_next htake]
    rfl

/-- Settles O54: in progress or just issued to a ready block, a reserved opcode ends the run in its first step. -/
theorem runOfAReservedOpcodeIsRefused : Obligations.RunOfAReservedOpcodeIsRefused := by
  unfold Obligations.RunOfAReservedOpcodeIsRefused
  intro s c hill hs k
  have hr : reservedCommand c = true := by rw [reservedCommand, hill, Bool.not_false]
  apply run_of_step_refused
  obtain hcmd | ⟨hcmd, hrsp, rest, hhost⟩ := hs
  · exact step_of_reserved hcmd hr
  · exact step_issue_reserved hcmd hrsp hhost hr

end Sys2Proof.Machine

/-! ## The mix step and the seed word (R80 to R84)

Both are read as arithmetic on natural numbers modulo `2^64`: the mix step is one multiply-add, and the two upper halves
that make a seed word share no bit, so that joining them is adding them. -/

namespace Sys2Proof.Machine

/-- Settles O23: the product and the sum of words are those of their numbers, modulo `2^64`. -/
theorem mixIsTheWrappingMultiplyAdd : Obligations.MixIsTheWrappingMultiplyAdd := by
  unfold Obligations.MixIsTheWrappingMultiplyAdd
  intro s
  rw [mix, BitVec.toNat_add, BitVec.toNat_mul, Nat.mod_add_mod]
  rfl

/-- R81's multiplier is the inverse of the one of `MIX`, modulo `2^64`. -/
theorem unmixMul_mul_lcgMul : 0xA967A2A713A9E9F5#64 * lcgMul = 1#64 := by decide

theorem unmix_mix (s : Word) : Spec.unmix (mix s) = s :=
  calc Spec.unmix (mix s)
    _ = 0xA967A2A713A9E9F5#64 * (lcgMul * s + lcgAdd - lcgAdd) := rfl
    _ = 0xA967A2A713A9E9F5#64 * lcgMul * s := by rw [BitVec.add_sub_cancel, BitVec.mul_assoc]
    _ = s := by rw [unmixMul_mul_lcgMul, BitVec.one_mul]

theorem mix_unmix (y : Word) : mix (Spec.unmix y) = y :=
  calc mix (Spec.unmix y)
    _ = lcgMul * (0xA967A2A713A9E9F5#64 * (y - lcgAdd)) + lcgAdd := rfl
    _ = y - lcgAdd + lcgAdd := by rw [← BitVec.mul_assoc, BitVec.mul_comm lcgMul, unmixMul_mul_lcgMul, BitVec.one_mul]
    _ = y := BitVec.sub_add_cancel y lcgAdd

/-- Settles O24: an odd multiplier, and the inverse of it that undoes the mix step from either side. -/
theorem mixIsABijection : Obligations.MixIsABijection := by
  unfold Obligations.MixIsABijection
  exact ⟨by decide, unmix_mix, mix_unmix⟩

/-- Masking a word with the upper half is dropping its low 32 bits and putting zeros in their place. -/
theorem and_highMask (w : Word) : w &&& highMask = w >>> 32 <<< 32 := by
  have hmask : highMask = BitVec.allOnes 64 <<< 32 := by decide
  rw [hmask, BitVec.shiftLeft_ushiftRight]

/-- The upper half of one word above the upper half of another, as a number: the two parts share no bit. -/
theorem toNat_joinUpperHalves (s1 s2 : Word) :
    ((s1 &&& highMask) ||| (s2 >>> 32)).toNat = s1.toNat / 2 ^ 32 * 2 ^ 32 + s2.toNat / 2 ^ 32 := by
  have hlow : (s2 >>> 32).toNat < 2 ^ 32 := by bv_omega
  have hhigh : (s1 >>> 32).toNat * 2 ^ 32 < 2 ^ 64 := by bv_omega
  rw [and_highMask, BitVec.toNat_or, BitVec.toNat_shiftLeft, Nat.shiftLeft_eq, Nat.mod_eq_of_lt hhigh,
    ← Nat.shiftLeft_eq, ← Nat.shiftLeft_add_eq_or_of_lt hlow, Nat.shiftLeft_eq, BitVec.toNat_ushiftRight,
    BitVec.toNat_ushiftRight, Nat.shiftRight_eq_div_pow, Nat.shiftRight_eq_div_pow]

/-- Settles O26: the perturbation is added to the number of the joined halves, modulo `2^64`. -/
theorem seedWordJoinsTheUpperHalves : Obligations.SeedWordJoinsTheUpperHalves := by
  unfold Obligations.SeedWordJoinsTheUpperHalves
  intro s1 s2 position
  rw [seedWord, BitVec.toNat_add, toNat_joinUpperHalves, BitVec.toNat_ofNat, Nat.add_mod_mod]
  rfl

end Sys2Proof.Machine

/-! ## The loop of SEED and its closed form (R85, R86)

Before position `p` the scratch value is the seed after `2 * p` mixes, so each pass of the loop writes R86's word. -/

namespace Sys2Proof.Machine

theorem mixed_succ (v : Word) (k : Nat) : Spec.mixed v (k + 1) = mix (Spec.mixed v k) := rfl

/-- The word of two mixes in a row is the closed form. -/
theorem seedWord_mixed (v : Word) (p : Nat) :
    seedWord (Spec.mixed v (2 * p + 1)) (Spec.mixed v (2 * p + 2)) p = Spec.seededWord v p := rfl

/-- The loop, entered at position `p` with the scratch value it has there, writes the closed form from `p` on. -/
theorem seedFrom_mixed (v : Word) (n p : Nat) :
    seedFrom n p (Spec.mixed v (2 * p)) = (List.range' p n).map fun q => (q, Spec.seededWord v q) := by
  induction n generalizing p with
  | zero => rfl
  | succ n ih =>
    rw [seedFrom_succ, ← mixed_succ, ← mixed_succ, seedWord_mixed, List.range'_succ, List.map_cons]
    exact congrArg _ (ih (p + 1))

/-- The store after a seeding is the closed form of its seed. -/
theorem seedFrom_eq_closedForm (v : Word) :
    seedFrom NN 0 v = (List.range 312).map fun p => (p, Spec.seededWord v p) := by
  rw [List.range_eq_range']
  exact seedFrom_mixed v NN 0

/-- Settles O27: the loop runs from position 0 with the seed itself as scratch value, and reads no state. -/
theorem seedFillsEveryWordFromTheSeedAlone : Obligations.SeedFillsEveryWordFromTheSeedAlone := by
  unfold Obligations.SeedFillsEveryWordFromTheSeedAlone
  intro v s hc
  rw [exec_seed, whenCursorInRange_of_le hc, answer, seedState, seedFrom_eq_closedForm]
  rfl

end Sys2Proof.Machine

/-! ## One word of the twist, bit by bit (R100, R101, R102) -/

namespace Sys2Proof.Machine

theorem getLsbD_upperMask {k : Nat} (hk : k < 64) : upperMask.getLsbD k = decide (31 ≤ k) := by
  have h : upperMask = BitVec.allOnes 64 <<< 31 := by decide
  rw [h, BitVec.getLsbD_shiftLeft, BitVec.getLsbD_allOnes]
  by_cases h31 : 31 ≤ k
  · simp [hk, h31, Nat.not_lt.mpr h31, show k - 31 < 64 by omega]
  · simp [h31, Nat.lt_of_not_le h31]

theorem getLsbD_lowerMask {k : Nat} (hk : k < 64) : lowerMask.getLsbD k = decide (k < 31) := by
  have h : lowerMask = BitVec.allOnes 64 >>> 33 := by decide
  rw [h, BitVec.getLsbD_ushiftRight, BitVec.getLsbD_allOnes]
  exact decide_eq_decide.mpr (by omega)

/-- The part taken from the current word and the part taken from the next share no bit. -/
theorem and_upper_and_lower (cur nxt : Word) : (cur &&& upperMask) &&& (nxt &&& lowerMask) = 0#64 := by
  have h : upperMask &&& lowerMask = 0#64 := by decide
  calc (cur &&& upperMask) &&& (nxt &&& lowerMask) = (cur &&& nxt) &&& (upperMask &&& lowerMask) := by ac_rfl
    _ = 0#64 := by rw [h, BitVec.and_zero]

theorem or_eq_xor_of_and_eq_zero {x y : Word} (h : x &&& y = 0#64) : x ||| y = x ^^^ y := by
  refine BitVec.eq_of_getLsbD_eq fun k _ => ?_
  have hbit : (x.getLsbD k && y.getLsbD k) = false := by rw [← BitVec.getLsbD_and, h, BitVec.getLsbD_zero]
  rw [BitVec.getLsbD_or, BitVec.getLsbD_xor]
  cases hx : x.getLsbD k with
  | false => rw [Bool.false_or, Bool.false_xor]
  | true =>
    rw [hx, Bool.true_and] at hbit
    rw [hbit, Bool.or_false, Bool.xor_false]

theorem getLsbD_assemble (cur nxt : Word) (k : Nat) :
    (assemble cur nxt).getLsbD k = if 31 ≤ k then cur.getLsbD k else nxt.getLsbD k := by
  by_cases hk : k < 64
  · rw [assemble, BitVec.getLsbD_or, BitVec.getLsbD_and, BitVec.getLsbD_and, getLsbD_upperMask hk, getLsbD_lowerMask hk]
    by_cases h : 31 ≤ k
    · simp [h]
    · simp [h, Nat.lt_of_not_le h]
  · have hle : 64 ≤ k := Nat.le_of_not_lt hk
    rw [BitVec.getLsbD_of_ge _ _ hle, BitVec.getLsbD_of_ge _ _ hle, BitVec.getLsbD_of_ge _ _ hle, ite_self]

/-- Settles O28: each mask keeps its side of bit 31, so the two parts share no bit, and joining them needs no carry. -/
theorem assembleSplitsAtBit31 : Obligations.AssembleSplitsAtBit31 := by
  unfold Obligations.AssembleSplitsAtBit31
  intro cur nxt
  have hdisj := and_upper_and_lower cur nxt
  refine ⟨getLsbD_assemble cur nxt, ?_, ?_⟩
  · exact or_eq_xor_of_and_eq_zero hdisj
  · exact (BitVec.add_eq_or_of_and_eq_zero _ _ hdisj).symm

/-- The bit the shift drops is bit 0 of the next word (R102). -/
theorem droppedBit_assemble (cur nxt : Word) : droppedBit (assemble cur nxt) = nxt.getLsbD 0 :=
  getLsbD_assemble cur nxt 0

/-- The current word enters the twist through its bits 63 to 31 alone (R100, R108). -/
theorem twistF_congr_cur {cur cur' : Word} (h : cur >>> 31 = cur' >>> 31) (nxt t0 t1 t2 : Word) :
    twistF cur nxt t0 t1 t2 = twistF cur' nxt t0 t1 t2 := by
  have hx : assemble cur nxt = assemble cur' nxt := by
    refine BitVec.eq_of_getLsbD_eq fun k _ => ?_
    rw [getLsbD_assemble, getLsbD_assemble]
    by_cases hk : 31 ≤ k
    · have hbit := congrArg (·.getLsbD (k - 31)) h
      simp only [BitVec.getLsbD_ushiftRight, Nat.add_sub_cancel' hk] at hbit
      rw [if_pos hk, if_pos hk, hbit]
    · rw [if_neg hk, if_neg hk]
  rw [twistF, twistF, hx]

/-- Settles O29: each operation of the twist works bit by bit, and the constant is chosen by the dropped bit. -/
theorem twistShiftsAndDropsABit : Obligations.TwistShiftsAndDropsABit := by
  unfold Obligations.TwistShiftsAndDropsABit
  intro cur nxt t0 t1 t2 k hk
  have hshift : (assemble cur nxt >>> 1).getLsbD k = (decide (k < 63) && (assemble cur nxt).getLsbD (k + 1)) := by
    rw [BitVec.getLsbD_ushiftRight, Nat.add_comm]
    by_cases h : k < 63
    · simp [h]
    · simp [h, BitVec.getLsbD_of_ge (assemble cur nxt) (k + 1) (by omega)]
  have hconst : (if nxt.getLsbD 0 then matrixA else 0#64).getLsbD k =
      (nxt.getLsbD 0 && (0xB3815B624FC82E2F#64).getLsbD k) := by
    cases nxt.getLsbD 0
    · simp
    · simp [matrixA]
  simp only [twistF, BitVec.getLsbD_xor, droppedBit_assemble, hshift, hconst]

end Sys2Proof.Machine

/-! ## The 312 steps in place (R104, R105, R106)

Step `n` writes word `n` and no other, so before it the words from `n` on are old and the ones below it are final. The
old words followed by the new ones make one history, in which the step reads ahead by its five offsets. -/

namespace Sys2Proof.Machine

theorem twistSteps_succ_getElem_self (a : Vector Word NN) {n : Nat} (hn : n < NN) :
    (twistSteps a (n + 1))[n] =
      twistF (twistSteps a n)[loopIndex n] (twistSteps a n)[wrapIndex (loopIndex n) 1]
        (twistSteps a n)[wrapIndex (loopIndex n) 63] (twistSteps a n)[wrapIndex (loopIndex n) 151]
        (twistSteps a n)[wrapIndex (loopIndex n) 224] :=
  (twistStep_getElem _ _ hn).trans (if_pos (loopIndex_val hn))

theorem twistSteps_succ_getElem_of_ne (a : Vector Word NN) {n j : Nat} (hn : n < NN) (hj : j < NN) (hne : n ≠ j) :
    (twistSteps a (n + 1))[j] = (twistSteps a n)[j] :=
  (twistStep_getElem _ _ hj).trans (if_neg (by rwa [loopIndex_val hn]))

theorem twistSteps_getElem_of_le (a : Vector Word NN) {n j : Nat} (hnj : n ≤ j) (hj : j < NN) :
    (twistSteps a n)[j] = a[j] := by
  induction n with
  | zero => rfl
  | succ n ih =>
    rw [twistSteps_succ_getElem_of_ne a (by omega) hj (by omega), ih (by omega)]

/-- A word already written keeps its value to the end. -/
theorem twistSteps_getElem_of_lt (a : Vector Word NN) {n j : Nat} (hjn : j < n) (hn : n ≤ NN) :
    (twistSteps a NN)[j] = (twistSteps a n)[j] := by
  induction hn using Nat.decreasingInduction with
  | self => rfl
  | of_succ n hn ih =>
    rw [ih (by omega), twistSteps_succ_getElem_of_ne a hn (by omega) (by omega)]

/-- The old words and then the new ones: R106's `sel`. -/
def historyWord (old : Vector Word NN) (k : Nat) : Word :=
  if k < NN then old[loopIndex k] else (twistSteps old NN)[loopIndex k]

theorem historyWord_old (old : Vector Word NN) {j : Nat} (hj : j < NN) : historyWord old j = old[j] := by
  simp only [historyWord, if_pos hj, Fin.getElem_fin, loopIndex_val hj]

theorem historyWord_new (old : Vector Word NN) {j : Nat} (hj : j < NN) :
    historyWord old (NN + j) = (twistSteps old NN)[j] := by
  have hmod : (loopIndex (NN + j)).val = j := (Nat.add_mod_left NN j).trans (Nat.mod_eq_of_lt hj)
  simp only [historyWord, if_neg (Nat.not_lt.mpr (Nat.le_add_right NN j)), Fin.getElem_fin, hmod]

/-- Step `i` reads the word `k` places on in the history (R105). -/
theorem twistSteps_wrapIndex (old : Vector Word NN) {i k : Nat} (hi : i < NN) (hk : k < NN) :
    (twistSteps old i)[wrapIndex (loopIndex i) k] = historyWord old (i + k) := by
  have hval : (wrapIndex (loopIndex i) k).val = (i + k) % NN := by rw [wrapIndex_val, loopIndex_val hi]
  simp only [Fin.getElem_fin, hval]
  by_cases h : i + k < NN
  · simp only [Nat.mod_eq_of_lt h]
    rw [historyWord_old old h, twistSteps_getElem_of_le old (by omega) h]
  · obtain ⟨j, hj⟩ := Nat.exists_eq_add_of_le (Nat.le_of_not_lt h)
    have hji : j < i := by omega
    simp only [hj, Nat.add_mod_left, Nat.mod_eq_of_lt (Nat.lt_trans hji hi)]
    rw [historyWord_new old (by omega), twistSteps_getElem_of_lt old hji (by omega)]

/-- R106: each new word is the twist of an old word and of four words further on in the history. -/
theorem twistSteps_recurrence (old : Vector Word NN) {i : Nat} (hi : i < NN) :
    (twistSteps old NN)[i] = twistF old[i] (historyWord old (i + 1)) (historyWord old (i + 63))
      (historyWord old (i + 151)) (historyWord old (i + 224)) := by
  have hcur : (twistSteps old i)[loopIndex i] = old[i] := by
    simp only [Fin.getElem_fin, loopIndex_val hi]
    exact twistSteps_getElem_of_le old (Nat.le_refl i) hi
  have hread {k : Nat} (hk : k < NN) := twistSteps_wrapIndex old hi hk
  rw [twistSteps_getElem_of_lt old (Nat.lt_succ_self i) hi, twistSteps_succ_getElem_self old hi, hcur,
    hread (by decide), hread (by decide), hread (by decide), hread (by decide)]

/-- Arrays that agree after some step agree after every later one. -/
theorem twistSteps_congr_add {a b : Vector Word NN} {m : Nat} (h : twistSteps a m = twistSteps b m) (n : Nat) :
    twistSteps a (m + n) = twistSteps b (m + n) := by
  induction n with
  | zero => exact h
  | succ n ih => rw [← Nat.add_assoc, twistSteps_succ, twistSteps_succ, ih]

/-- The first step reads word 0 through its bits 63 to 31 alone, and overwrites it. -/
theorem twistSteps_one_set_zero {a : Vector Word NN} {w : Word} (h : w >>> 31 = a[0] >>> 31) :
    twistSteps (a.set 0 w) 1 = twistSteps a 1 := by
  have hread {k : Nat} (hk : 0 < k) (hlt : k < NN) :
      (a.set 0 w)[wrapIndex (loopIndex 0) k] = a[wrapIndex (loopIndex 0) k] := by
    have hval : (wrapIndex (loopIndex 0) k).val = k := by
      rw [wrapIndex_val, loopIndex_val (by decide), Nat.zero_add, Nat.mod_eq_of_lt hlt]
    exact Vector.getElem_set_ne _ _ (by omega)
  have hcur : (a.set 0 w)[loopIndex 0] >>> 31 = a[loopIndex 0] >>> 31 := by
    have hset : (a.set 0 w)[loopIndex 0] = w := Vector.getElem_set_self _
    rw [hset, h]
    rfl
  refine Vector.ext fun j hj => ?_
  obtain rfl | hj0 := Nat.eq_zero_or_pos j
  · rw [twistSteps_succ_getElem_self _ hj, twistSteps_succ_getElem_self _ hj]
    simp only [twistSteps]
    rw [twistF_congr_cur hcur, hread (by decide) (by decide), hread (by decide) (by decide), hread (by decide) (by decide),
      hread (by decide) (by decide)]
  · rw [twistSteps_succ_getElem_of_ne _ (by decide) hj hj0.ne, twistSteps_succ_getElem_of_ne _ (by decide) hj hj0.ne]
    exact Vector.getElem_set_ne _ hj hj0.ne

/-- So the low 31 bits of word 0 are lost in the first step, and no later step can tell them (R108). -/
theorem twistSteps_set_zero {a : Vector Word NN} {w : Word} (h : w >>> 31 = a[0] >>> 31) :
    twistSteps (a.set 0 w) NN = twistSteps a NN :=
  twistSteps_congr_add (twistSteps_one_set_zero h) 311

theorem twistSteps_replicate_zero (n : Nat) : twistSteps (Vector.replicate NN 0#64) n = Vector.replicate NN 0#64 := by
  induction n with
  | zero => rfl
  | succ n ih =>
    have hzero : twistF 0#64 0#64 0#64 0#64 0#64 = 0#64 := by decide
    rw [twistSteps_succ, ih]
    refine Vector.ext fun j hj => ?_
    refine (twistStep_getElem _ _ hj).trans ?_
    simp only [Fin.getElem_fin, Vector.getElem_replicate, hzero, ite_self]

end Sys2Proof.Machine

/-! ## ADVANCE (R104, R106, R108, R109) -/

namespace Sys2Proof.Machine

/-- `ADVANCE` of a seeded block: the cursor decides nothing but that no seeding runs first. -/
theorem exec_advance_seeded (arg : Word) {s : State} (hc : s.cursor.toNat ≤ 312) :
    exec (.advance arg) s = andThen s.words.loadArray fun a => .next { s with
      words := Memory.ofArray (twistSteps a NN), cursor := 0#9, cmd := none, rsp := some .noData } := by
  rw [exec_advance, whenCursorInRange_of_le (by omega), advanceState_seeded (cursor_ne_unseeded_of_le hc)]
  cases s.words.loadArray <;> simp only [andThen_next, andThen_fault, andThen_refused, answer]

theorem exec_advance_of_ofArray (arg : Word) {s : State} {a : Vector Word NN} (hc : s.cursor.toNat ≤ 312)
    (hw : s.words = Memory.ofArray a) :
    exec (.advance arg) s = .next { s with
      words := Memory.ofArray (twistSteps a NN), cursor := 0#9, cmd := none, rsp := some .noData } := by
  rw [exec_advance_seeded arg hc, hw, Memory.loadArray_ofArray, andThen_next]

/-- `ADVANCE` of an unseeded block twists the words of the default seeding, whatever words it held. -/
theorem exec_advance_unseeded (arg : Word) {s : State} {a : Vector Word NN} (hc : s.cursor = 313#9)
    (ha : seedFrom NN 0 defaultSeed = Memory.ofArray a) :
    exec (.advance arg) s = .next { s with
      words := Memory.ofArray (twistSteps a NN), cursor := 0#9, cmd := none, rsp := some .noData } := by
  have hle : s.cursor.toNat ≤ 313 := by rw [hc]; decide
  have hseeded : (seedState defaultSeed s).cursor ≠ 313#9 := by rw [seedState_cursor]; decide
  rw [exec_advance, whenCursorInRange_of_le hle, advanceState_unseeded hc, advanceState_seeded hseeded,
    seedState_words, ha, Memory.loadArray_ofArray, andThen_next, andThen_next, answer, seedState]

/-- Settles O31: the seeding leaves a whole array with the cursor at 0, and `ADVANCE` of that gives the same block. -/
theorem advanceOfAnUnseededBlockSeedsFirst : Obligations.AdvanceOfAnUnseededBlockSeedsFirst := by
  unfold Obligations.AdvanceOfAnUnseededBlockSeedsFirst
  intro arg s hc
  obtain ⟨a, ha⟩ := seedFrom_eq_ofArray defaultSeed
  have hle : s.cursor.toNat ≤ 313 := by rw [hc]; decide
  have hadvance := exec_advance_unseeded arg hc ha
  refine ⟨?_, _, hadvance⟩
  have hseeded : (answer .noData (seedState defaultSeed s)).cursor.toNat ≤ 312 := Nat.zero_le 312
  have hwords : (answer .noData (seedState defaultSeed s)).words = Memory.ofArray a := by
    rw [answer_words, seedState_words, ha]
  rw [hadvance, exec_seed, whenCursorInRange_of_le hle, andThen_next]
  exact (exec_advance_of_ofArray arg hseeded hwords).symm

/-- Settles O32: an advance of a seeded block sets the cursor and does not look at it. -/
theorem advanceForgetsTheCursor : Obligations.AdvanceForgetsTheCursor := by
  unfold Obligations.AdvanceForgetsTheCursor
  intro arg s c hs hc
  rw [exec_advance_seeded arg hs, exec_advance_seeded arg (s := { s with cursor := c }) hc]

/-- Settles O33: the two arrays are equal after the first step, and so at the end. -/
theorem advanceIgnoresLowBitsOfFirstWord : Obligations.AdvanceIgnoresLowBitsOfFirstWord := by
  unfold Obligations.AdvanceIgnoresLowBitsOfFirstWord
  intro arg s old w hc hw
  have hadvance (a : Vector Word NN) :=
    exec_advance_of_ofArray arg (s := { s with words := Memory.ofArray a }) hc rfl
  rw [hadvance, hadvance, twistSteps_set_zero hw]

/-- Settles O34: each step of an array of zeros writes the zero that stands there. -/
theorem zeroArrayIsAFixedPointOfAdvance : Obligations.ZeroArrayIsAFixedPointOfAdvance := by
  unfold Obligations.ZeroArrayIsAFixedPointOfAdvance
  intro arg s hc hw
  rw [exec_advance_of_ofArray arg hc hw, twistSteps_replicate_zero, ← hw]

/-- The store of an array whose words a formula gives. -/
theorem Memory.ofArray_eq_map {a : Vector Word NN} {f : Nat → Word} (h : ∀ (i : Nat) (hi : i < NN), a[i] = f i) :
    Memory.ofArray a = (List.range 312).map fun i => (i, f i) := by
  refine List.ext_getElem (by simp [Memory.ofArray]) fun i hi _ => ?_
  have hi' : i < NN := by simpa [Memory.ofArray] using hi
  simp [Memory.ofArray, h i hi']

/-- Settles O30: the new array is the 312 steps in place, and `sel` is the history of old and new words. -/
theorem advanceInPlaceIsTheRecurrence : Obligations.AdvanceInPlaceIsTheRecurrence := by
  unfold Obligations.AdvanceInPlaceIsTheRecurrence
  intro arg s old hs
  refine ⟨twistSteps old NN, ?_, historyWord old, fun _ => historyWord_old old, fun _ => historyWord_new old,
    fun _ => twistSteps_recurrence old⟩
  obtain ⟨hc, hw⟩ | ⟨hc, hold⟩ := hs
  · exact exec_advance_of_ofArray arg hc hw
  · refine exec_advance_unseeded arg hc ?_
    rw [Memory.ofArray_eq_map hold, seedFrom_eq_closedForm]
    rfl

end Sys2Proof.Machine

/-! ## The stream after a seeding (R110, R120, R127, R129)

The array of generation `g` holds words `312 * g` to `312 * g + 311` of the sequence of R110, and an advance takes each
generation to the next. So after a draw, a block whose next word was word `n` is a block whose next word is word `n + 1`. -/

namespace Sys2Proof.Machine

theorem wordSequence_seeded (v : Word) {n : Nat} (hn : n < 312) : Spec.wordSequence v n = Spec.seededWord v n := by
  rw [Spec.wordSequence, if_pos hn]

theorem wordSequence_add (v : Word) (n : Nat) :
    Spec.wordSequence v (n + 312) =
      twistF (Spec.wordSequence v n) (Spec.wordSequence v (n + 1)) (Spec.wordSequence v (n + 63))
        (Spec.wordSequence v (n + 151)) (Spec.wordSequence v (n + 224)) := by
  rw [Spec.wordSequence, if_neg (by omega), Nat.add_sub_cancel]

/-- The array of generation `g`. -/
def generation (v : Word) (g : Nat) : Vector Word NN := Vector.ofFn fun i => Spec.wordSequence v (g * 312 + i)

theorem generation_getElem (v : Word) (g : Nat) {i : Nat} (hi : i < NN) :
    (generation v g)[i] = Spec.wordSequence v (g * 312 + i) := Vector.getElem_ofFn hi

/-- The store of a generation. -/
theorem ofArray_generation (v : Word) (g : Nat) :
    Memory.ofArray (generation v g) = (List.range 312).map fun i => (i, Spec.wordSequence v (g * 312 + i)) :=
  Memory.ofArray_eq_map fun _ => generation_getElem v g

/-- A seeding leaves generation 0. -/
theorem seedFrom_eq_generation (v : Word) : seedFrom NN 0 v = Memory.ofArray (generation v 0) := by
  rw [seedFrom_eq_closedForm]
  refine (Memory.ofArray_eq_map fun i hi => ?_).symm
  rw [generation_getElem v 0 hi, Nat.zero_mul, Nat.zero_add, wordSequence_seeded v hi]

/-- The history of generation `g` is the sequence from word `312 * g` on, by strong induction over the new words. -/
theorem twistSteps_generation_getElem (v : Word) (g : Nat) {i : Nat} (hi : i < NN) :
    (twistSteps (generation v g) NN)[i] = Spec.wordSequence v (g * 312 + 312 + i) := by
  induction i using Nat.strong_induction_on with
  | _ i ih =>
    have hread {k : Nat} (hk : k < NN) :
        historyWord (generation v g) (i + k) = Spec.wordSequence v (g * 312 + i + k) := by
      by_cases h : i + k < NN
      · rw [historyWord_old _ h, generation_getElem v g h, Nat.add_assoc]
      · obtain ⟨j, hj⟩ := Nat.exists_eq_add_of_le (Nat.le_of_not_lt h)
        rw [hj, historyWord_new _ (by omega), ih j (by omega) (by omega)]
        rw [show g * 312 + i + k = g * 312 + 312 + j by have : i + k = 312 + j := hj; omega]
    rw [twistSteps_recurrence _ hi, generation_getElem v g hi, hread (by decide), hread (by decide), hread (by decide),
      hread (by decide), ← wordSequence_add, Nat.add_right_comm]

/-- An advance takes each generation to the next. -/
theorem twistSteps_generation (v : Word) (g : Nat) : twistSteps (generation v g) NN = generation v (g + 1) := by
  refine Vector.ext fun i hi => ?_
  rw [twistSteps_generation_getElem v g hi, generation_getElem v _ hi, Nat.add_one_mul]

/-- The next word of the block is word `n` of the sequence: it holds a whole generation, and the cursor counts the words
consumed of it. -/
def NextWordIs (v : Word) (n : Nat) (s : State) : Prop :=
  ∃ g, s.words = Memory.ofArray (generation v g) ∧ s.cursor.toNat ≤ 312 ∧ n = g * 312 + s.cursor.toNat

theorem nextWordIs_seedState (v : Word) (s : State) : NextWordIs v 0 (seedState v s) :=
  ⟨0, seedFrom_eq_generation v, by simp, by simp⟩

theorem advanceState_generation {v : Word} {g : Nat} {s : State} (hw : s.words = Memory.ofArray (generation v g))
    (hc : s.cursor.toNat ≤ 312) :
    advanceState s = .next { s with words := Memory.ofArray (generation v (g + 1)), cursor := 0#9 } := by
  rw [advanceState_seeded (cursor_ne_unseeded_of_le hc), hw, Memory.loadArray_ofArray, andThen_next,
    twistSteps_generation]

/-- The response register is no part of the generator state. -/
theorem nextWordIs_answer {v : Word} {n : Nat} {s : State} (h : NextWordIs v n s) (r : Response) :
    NextWordIs v n (answer r s) := h

/-- The generator state in which word `n` of the sequence has just been consumed. -/
def consumed (v : Word) (n : Nat) (s : State) : State :=
  { s with words := Memory.ofArray (generation v (n / 312)), cursor := BitVec.ofNat 9 (n % 312 + 1) }

theorem consumed_words (v : Word) (n : Nat) (s : State) :
    (consumed v n s).words = Memory.ofArray (generation v (n / 312)) := by rw [consumed]

theorem consumed_cursor (v : Word) (n : Nat) (s : State) : (consumed v n s).cursor.toNat = n % 312 + 1 := by
  have hlt := Nat.mod_lt n (show 0 < 312 by decide)
  exact Nat.mod_eq_of_lt (by omega)

theorem nextWordIs_consumed (v : Word) (n : Nat) (s : State) : NextWordIs v (n + 1) (consumed v n s) := by
  refine ⟨n / 312, consumed_words v n s, ?_, ?_⟩
  · rw [consumed_cursor]
    omega
  · rw [consumed_cursor]
    omega

/-- A fetch from a generation with a word left. -/
theorem fetchWord_generation {v : Word} {g : Nat} {s : State} (hw : s.words = Memory.ofArray (generation v g))
    (hc : s.cursor.toNat < 312) :
    fetchWord s = .next (consumed v (g * 312 + s.cursor.toNat) s,
      temper (Spec.wordSequence v (g * 312 + s.cursor.toNat))) := by
  have hread : s.words.read s.cursor.toNat = some (Spec.wordSequence v (g * 312 + s.cursor.toNat)) := by
    rw [hw, Memory.read_ofArray _ hc, generation_getElem v g hc]
  have hdiv : (g * 312 + s.cursor.toNat) / 312 = g := by omega
  have hmod : (g * 312 + s.cursor.toNat) % 312 = s.cursor.toNat := by omega
  rw [fetchWord_word_left (by omega) hread, consumed, hdiv, hmod, ← hw, BitVec.ofNat_add, BitVec.ofNat_toNat,
    BitVec.setWidth_eq]

/-- A fetch consumes the next word of the sequence; with none left in its generation it advances first (R120). -/
theorem NextWordIs.fetchWord_eq {v : Word} {n : Nat} {s : State} (h : NextWordIs v n s) :
    fetchWord s = .next (consumed v n s, temper (Spec.wordSequence v n)) := by
  obtain ⟨g, hw, hc, rfl⟩ := h
  obtain hlt | heq := Nat.lt_or_eq_of_le hc
  · exact fetchWord_generation hw hlt
  · have hnext := fetchWord_generation (v := v) (g := g + 1)
      (s := { s with words := Memory.ofArray (generation v (g + 1)), cursor := 0#9 }) (by simp only) (by simp)
    rw [fetchWord_no_word_left heq.ge, advanceState_generation hw hc, andThen_next, hnext, heq, ← Nat.add_one_mul]
    simp only [consumed, BitVec.toNat_ofNat, Nat.zero_mod, Nat.add_zero]

/-- Every draw consumes the next word of the sequence and answers with its own form of it. -/
theorem NextWordIs.draw_eq {v : Word} {n : Nat} {s : State} (h : NextWordIs v n s) (convert : Word → Word) :
    draw convert s = .next (answer (.data (convert (temper (Spec.wordSequence v n)))) (consumed v n s)) := by
  have hc : s.cursor.toNat ≤ 313 := by
    obtain ⟨_, -, hle, -⟩ := h
    omega
  rw [draw, whenCursorInRange_of_le hc, h.fetchWord_eq, andThen_next]

theorem drawMany_succ (n : Nat) (s : State) :
    drawMany (n + 1) s = andThen (drawMany n s) (exec (.nextU64 0#64)) := rfl

/-- The stream from any point of the sequence on. -/
theorem NextWordIs.drawMany_succ_eq {v : Word} {m : Nat} {s : State} (h : NextWordIs v m s) (n : Nat) :
    drawMany (n + 1) s =
      .next (answer (.data (temper (Spec.wordSequence v (m + n)))) (consumed v (m + n) s)) := by
  induction n with
  | zero => exact h.draw_eq fun x => x
  | succ n ih =>
    have hnext := nextWordIs_answer (nextWordIs_consumed v (m + n) s) (.data (temper (Spec.wordSequence v (m + n))))
    rw [drawMany_succ, ih, andThen_next, exec_nextU64, hnext.draw_eq]
    simp only [answer, consumed, Nat.add_assoc]

/-- Settles O40: the seeding leaves a block whose next word is word 0, and draw `n + 1` consumes word `n`. -/
theorem streamAfterSeedIsTheRecurrence : Obligations.StreamAfterSeedIsTheRecurrence := by
  unfold Obligations.StreamAfterSeedIsTheRecurrence
  intro v s n hc
  have hdraws := (nextWordIs_answer (nextWordIs_seedState v s) .noData).drawMany_succ_eq n
  rw [exec_seed, whenCursorInRange_of_le hc, andThen_next, hdraws, Nat.zero_add]
  refine ⟨_, rfl, answer_rsp _ _, ?_, ?_⟩
  · rw [answer_cursor, consumed_cursor]
  · rw [answer_words, consumed_words, ofArray_generation]

end Sys2Proof.Machine

/-! ## One draw (R120, R125, R126)

A draw with a word left reads it and moves the cursor on; with none left it is one `ADVANCE` and then such a draw. -/

namespace Sys2Proof.Machine

/-- A draw with a word left: the word the cursor names is tempered and converted, and the cursor moves on. -/
theorem draw_word_left (convert : Word → Word) {s : State} {x : Word} (hc : s.cursor.toNat ≤ 311)
    (hx : s.words.read s.cursor.toNat = some x) :
    draw convert s =
      .next { s with cursor := s.cursor + 1#9, cmd := none, rsp := some (.data (convert (temper x))) } := by
  rw [draw, whenCursorInRange_of_le (by omega), fetchWord_word_left hc hx, andThen_next, answer]

/-- Settles O35: the four draws differ in the conversion alone. -/
theorem drawWithAWordLeft : Obligations.DrawWithAWordLeft := by
  unfold Obligations.DrawWithAWordLeft
  intro arg s x hc hx
  rw [exec_nextU64, exec_nextRealClosed, exec_nextRealHalfOpen, exec_nextRealOpen]
  exact ⟨draw_word_left _ hc hx, draw_word_left _ hc hx, draw_word_left _ hc hx, draw_word_left _ hc hx⟩

/-- With the cursor at a word, present or absent, a fetch is the read of that word. -/
theorem fetchWord_of_cursor_le {s : State} (hc : s.cursor.toNat ≤ 311) :
    fetchWord s = andThen (s.words.readWord s.cursor.toNat) fun x =>
      .next ({ s with cursor := s.cursor + 1#9 }, temper x) := by
  have h : needsAdvance s.cursor = false := by
    rw [Bool.eq_false_iff, ne_eq, needsAdvance_iff]
    omega
  simp only [fetchWord, h, Bool.false_eq_true, if_false, andThen_next, cursorIndex]

/-- A draw with the cursor at a word does not depend on the response that waits, nor on the command in progress. -/
theorem draw_answer (convert : Word → Word) (r : Response) {s : State} (hc : s.cursor.toNat ≤ 311) :
    draw convert (answer r s) = draw convert s := by
  rw [draw, draw, whenCursorInRange_of_le (by rw [answer_cursor]; omega), whenCursorInRange_of_le (by omega),
    fetchWord_of_cursor_le (by rw [answer_cursor]; omega), fetchWord_of_cursor_le hc, answer_words, answer_cursor]
  cases s.words.readWord s.cursor.toNat <;> rfl

/-- A draw with no word left, in the range of the cursor, is an advance and then a draw. -/
theorem draw_no_word_left (convert : Word → Word) {s : State} (hlo : 312 ≤ s.cursor.toNat)
    (hhi : s.cursor.toNat ≤ 313) : draw convert s = andThen (advanceState s) (draw convert) := by
  rw [draw, whenCursorInRange_of_le hhi, fetchWord_no_word_left hlo]
  obtain ⟨a, ha⟩ | ⟨-, -, hr⟩ := advanceState_cases s
  · rw [ha, andThen_next, andThen_next, draw, whenCursorInRange_of_le (by simp)]
  · rw [hr, andThen_refused, andThen_refused, andThen_refused]

/-- Settles O36: the advance leaves the cursor at 0, so the draw after it does not see its response; with the cursor
above 313 both sides are the same refusal. -/
theorem drawWithNoWordLeftAdvancesFirst : Obligations.DrawWithNoWordLeftAdvancesFirst := by
  unfold Obligations.DrawWithNoWordLeftAdvancesFirst
  intro i arg s hi hlo
  obtain ⟨convert, hdraw⟩ := exec_of_isDraw hi
  rw [exec_advance, hdraw]
  obtain hgt | hle := Nat.lt_or_ge 313 s.cursor.toNat
  · rw [draw, whenCursorInRange_of_gt hgt, whenCursorInRange_of_gt hgt, andThen_refused]
  · rw [draw_no_word_left convert hlo hle, whenCursorInRange_of_le hle]
    obtain ⟨a, ha⟩ | ⟨-, -, hr⟩ := advanceState_cases s
    · rw [ha, andThen_next, andThen_next, andThen_next, hdraw, draw_answer convert .noData (by simp)]
    · rw [hr, andThen_refused, andThen_refused, andThen_refused]

/-- A fetch moves the cursor by exactly one, from 0 if it had to advance first. -/
theorem fetchWord_cursor {s t : State} {y : Word} (h : fetchWord s = .next (t, y)) :
    t.cursor.toNat = (if s.cursor.toNat ≤ 311 then s.cursor.toNat else 0) + 1 := by
  obtain ⟨s', x, hs', -, rfl, -⟩ := fetchWord_eq_next h
  obtain ⟨hle, rfl⟩ | ⟨hge, a, rfl⟩ := fetchWord_prepares hs'
  · rw [if_pos hle]
    bv_omega
  · rw [if_neg (by omega)]
    rfl

/-- Settles O37: two draws share the fetch, which alone moves the cursor, and differ in how they convert its word. -/
theorem everyDrawConsumesOneWord : Obligations.EveryDrawConsumesOneWord := by
  unfold Obligations.EveryDrawConsumesOneWord
  intro i j s t hi hj ht
  obtain ⟨convertI, hdrawI⟩ := exec_of_isDraw hi
  obtain ⟨convertJ, hdrawJ⟩ := exec_of_isDraw hj
  rw [hdrawI] at ht
  obtain ⟨hc, s', y, hfetch, rfl⟩ := draw_eq_next.mp ht
  refine ⟨⟨convertJ y, ?_⟩, ?_⟩
  · rw [hdrawJ]
    exact draw_eq_next.mpr ⟨hc, s', y, hfetch, rfl⟩
  · rw [answer_cursor, fetchWord_cursor hfetch]

end Sys2Proof.Machine

/-! ## Streams after a seeding, an advance or nothing at all (R127, R128, R129)

An advance ends at the first word of the next generation however many words of the last one were left. From there, and
from a seeding, the draws run on along the sequence of R110; an unseeded block joins it at word 312. -/

namespace Sys2Proof.Machine

theorem andThen_assoc {α β γ : Type} (o : Result α) (f : α → Result β) (g : β → Result γ) :
    andThen (andThen o f) g = andThen o fun a => andThen (f a) g := by
  cases o <;> rfl

/-- An `ADVANCE` and then draws: word by word through the next generation, and on. -/
theorem advance_drawMany {v : Word} {g : Nat} {s : State} (hw : s.words = Memory.ofArray (generation v g))
    (hc : s.cursor.toNat ≤ 312) (arg : Word) (n : Nat) :
    andThen (exec (.advance arg) s) (drawMany (n + 1)) =
      .next (answer (.data (temper (Spec.wordSequence v ((g + 1) * 312 + n)))) (consumed v ((g + 1) * 312 + n) s)) := by
  have hstart : NextWordIs v ((g + 1) * 312)
      (answer .noData { s with words := Memory.ofArray (generation v (g + 1)), cursor := 0#9 }) :=
    ⟨g + 1, by simp only [answer_words], by simp, by simp⟩
  rw [exec_advance, whenCursorInRange_of_le (by omega), advanceState_generation hw hc, andThen_next, andThen_next,
    hstart.drawMany_succ_eq]
  simp only [answer, consumed]

theorem exec_seed_of_cursor_le (v : Word) {s : State} (hc : s.cursor.toNat ≤ 313) :
    exec (.seed v) s = .next (answer .noData (seedState v s)) := by
  rw [exec_seed, whenCursorInRange_of_le hc]

/-- A `SEED` and then draws: the sequence from its start. -/
theorem seed_drawMany (v : Word) {s : State} (hc : s.cursor.toNat ≤ 313) (n : Nat) :
    andThen (exec (.seed v) s) (drawMany (n + 1)) =
      .next (answer (.data (temper (Spec.wordSequence v n))) (consumed v n s)) := by
  have hstart := nextWordIs_answer (nextWordIs_seedState v s) .noData
  rw [exec_seed_of_cursor_le v hc, andThen_next, hstart.drawMany_succ_eq, Nat.zero_add]
  simp only [answer, consumed, seedState]

/-- A `SEED`, an `ADVANCE` and then draws: the sequence from word 312 on. -/
theorem seed_advance_drawMany (v arg : Word) {s : State} (hc : s.cursor.toNat ≤ 313) (n : Nat) :
    andThen (andThen (exec (.seed v) s) (exec (.advance arg))) (drawMany (n + 1)) =
      .next (answer (.data (temper (Spec.wordSequence v (312 + n)))) (consumed v (312 + n) s)) := by
  have hw : (answer .noData (seedState v s)).words = Memory.ofArray (generation v 0) := seedFrom_eq_generation v
  rw [exec_seed_of_cursor_le v hc, andThen_next, advance_drawMany hw (by simp)]
  simp only [answer, consumed, seedState, Nat.zero_add, Nat.one_mul]

/-- Settles O42: both runs consume word 312 of the sequence last, and end in the state that leaves. -/
theorem draw313RunsOneAdvance : Obligations.Draw313RunsOneAdvance := by
  unfold Obligations.Draw313RunsOneAdvance
  intro v s hc
  exact (seed_drawMany v hc 312).trans (seed_advance_drawMany v 0#64 hc 0).symm

/-- Draws from a block with no word left are one `ADVANCE` and then the draws: only the first can advance at once. -/
theorem drawMany_no_word_left (arg : Word) {s : State} (hc : 312 ≤ s.cursor.toNat) (n : Nat) :
    drawMany (n + 1) s = andThen (exec (.advance arg) s) (drawMany (n + 1)) := by
  induction n with
  | zero => exact drawWithNoWordLeftAdvancesFirst (.nextU64 0#64) arg s rfl hc
  | succ n ih =>
    rw [drawMany_succ, ih, andThen_assoc]
    rfl

/-- Draws with no `SEED`: the default seed's sequence from word 312 on. -/
theorem unseeded_drawMany {s : State} (hs : s.cursor = 313#9) (n : Nat) :
    drawMany (n + 1) s = .next (answer (.data (temper (Spec.wordSequence 987654321#64 (312 + n))))
      (consumed 987654321#64 (312 + n) s)) := by
  have hc : s.cursor.toNat = 313 := by rw [hs]; rfl
  obtain ⟨hadvance, -⟩ := advanceOfAnUnseededBlockSeedsFirst 0#64 s hs
  rw [drawMany_no_word_left 0#64 (by omega), hadvance, seed_advance_drawMany _ _ (by omega)]

/-- Settles O41: the unseeded block joins the default seed's sequence at word 312, where 312 draws after the `SEED`
lead; the words below 312 are the seeded ones. -/
theorem defaultStreamIsTheSeededOneLess312 : Obligations.DefaultStreamIsTheSeededOneLess312 := by
  unfold Obligations.DefaultStreamIsTheSeededOneLess312
  refine ⟨fun s n hs => ?_, fun s n hs => ?_, fun s n hc hn => ?_⟩
  · exact ⟨_, unseeded_drawMany hs n, answer_rsp _ _⟩
  · have hc : s.cursor.toNat ≤ 313 := by rw [hs]; decide
    rw [unseeded_drawMany hs, seed_drawMany _ hc (n + 312), Nat.add_comm n 312]
  · rw [← wordSequence_seeded _ hn]
    exact ⟨_, seed_drawMany _ hc n, answer_rsp _ _⟩

/-- After a `SEED` and `n` draws the block holds the generation of the last word drawn, the seeded one before any. -/
theorem seed_drawMany_generation (v : Word) {s : State} (hc : s.cursor.toNat ≤ 313) (n : Nat) :
    ∃ t, andThen (exec (.seed v) s) (drawMany n) = .next t ∧
      t.words = Memory.ofArray (generation v ((n - 1) / 312)) ∧ t.cursor.toNat ≤ 312 := by
  cases n with
  | zero =>
    refine ⟨answer .noData (seedState v s), ?_, seedFrom_eq_generation v, by simp⟩
    rw [exec_seed_of_cursor_le v hc, andThen_next, drawMany]
  | succ n =>
    refine ⟨_, seed_drawMany v hc n, ?_, ?_⟩
    · rw [answer_words, consumed_words, Nat.add_sub_cancel]
    · rw [answer_cursor, consumed_cursor]
      omega

/-- Settles O43: the words left of the generation held are lost, and the next draw consumes the first of the next. -/
theorem hostAdvanceSkipsToTheNextGeneration : Obligations.HostAdvanceSkipsToTheNextGeneration := by
  unfold Obligations.HostAdvanceSkipsToTheNextGeneration
  intro v arg s n hc
  obtain ⟨t, ht, hw, htc⟩ := seed_drawMany_generation v hc n
  rw [ht, andThen_next, advance_drawMany hw htc arg 0, Nat.add_zero, Nat.mul_comm]
  exact ⟨_, rfl, answer_rsp _ _⟩

end Sys2Proof.Machine

/-! ## Tempering (R121, R123, R124)

Each of the four steps of `TEMPER` xors a word with its image under a shift, one of them under a mask too. Such a map is
additive over exclusive or, and applied often enough it shifts every bit out. So the step is additive, and it is undone
by as many rounds as it takes to shift every bit out, less one. -/

namespace Sys2Proof.Machine

/-- Additive over exclusive or. -/
def XorLinear (f : Word → Word) : Prop := ∀ p q, f (p ^^^ q) = f p ^^^ f q

/-- One step of `TEMPER`. -/
def xorWith (f : Word → Word) (x : Word) : Word := x ^^^ f x

/-- The rounds by which `UNTEMPER` undoes a step. -/
def xorRounds (f : Word → Word) : Nat → Word → Word
  | 0, y => y
  | k + 1, y => y ^^^ f (xorRounds f k y)

/-- The map of the first and the last step. -/
def shiftDown (n : Nat) (x : Word) : Word := x >>> n

/-- The map of the two middle steps. -/
def shiftMask (n : Nat) (mask x : Word) : Word := (x <<< n) &&& mask

theorem temper_eq_steps (x : Word) :
    temper x = xorWith (shiftDown tL) (xorWith (shiftMask tT tMaskC)
      (xorWith (shiftMask tS tMaskB) (xorWith (shiftDown tU) x))) := rfl

theorem untemper_eq_rounds (d : Word) :
    Spec.untemper d = xorRounds (shiftDown tU) 2 (xorRounds (shiftMask tS tMaskB) 3
      (xorRounds (shiftMask tT tMaskC) 1 (xorRounds (shiftDown tL) 1 d))) := rfl

theorem xorLinear_shiftDown (n : Nat) : XorLinear (shiftDown n) :=
  fun p q => BitVec.ushiftRight_xor_distrib p q n

theorem xorLinear_shiftMask (n : Nat) (mask : Word) : XorLinear (shiftMask n mask) := by
  intro p q
  refine BitVec.eq_of_getLsbD_eq fun k _ => ?_
  simp only [shiftMask, BitVec.shiftLeft_xor_distrib, BitVec.getLsbD_and, BitVec.getLsbD_xor,
    Bool.and_xor_distrib_right]

theorem xorLinear_xorWith {f : Word → Word} (hf : XorLinear f) : XorLinear (xorWith f) := by
  intro p q
  simp only [xorWith, hf p q]
  ac_rfl

/-- Settles O39: each of the four steps is additive. -/
theorem temperIsLinear : Obligations.TemperIsLinear := by
  unfold Obligations.TemperIsLinear
  refine ⟨by decide, fun p q => ?_⟩
  simp only [temper_eq_steps]
  rw [xorLinear_xorWith (xorLinear_shiftDown tU), xorLinear_xorWith (xorLinear_shiftMask tS tMaskB),
    xorLinear_xorWith (xorLinear_shiftMask tT tMaskC), xorLinear_xorWith (xorLinear_shiftDown tL)]

theorem shiftDown_iterate (n k : Nat) (x : Word) : (shiftDown n)^[k] x = x >>> (k * n) := by
  induction k with
  | zero => simp
  | succ k ih => rw [Function.iterate_succ_apply', ih, shiftDown, ← BitVec.shiftRight_add, Nat.add_one_mul]

theorem shiftDown_iterate_eq_zero {n k : Nat} (h : 64 ≤ k * n) (x : Word) : (shiftDown n)^[k] x = 0#64 := by
  rw [shiftDown_iterate, BitVec.ushiftRight_eq_zero h]

theorem getLsbD_shiftMask_iterate {n k j : Nat} (mask x : Word) (h : j < k * n) :
    ((shiftMask n mask)^[k] x).getLsbD j = false := by
  induction k generalizing j with
  | zero => omega
  | succ k ih =>
    rw [Nat.add_one_mul] at h
    rw [Function.iterate_succ_apply', shiftMask, BitVec.getLsbD_and, BitVec.getLsbD_shiftLeft]
    by_cases hj : j < n
    · simp [hj]
    · simp [ih (show j - n < k * n by omega)]

theorem shiftMask_iterate_eq_zero {n k : Nat} (mask : Word) (h : 64 ≤ k * n) (x : Word) :
    (shiftMask n mask)^[k] x = 0#64 := by
  refine BitVec.eq_of_getLsbD_eq fun j hj => ?_
  rw [getLsbD_shiftMask_iterate mask x (by omega), BitVec.getLsbD_zero]

section Rounds

variable {f : Word → Word} (hf : XorLinear f)

include hf

/-- After `k` rounds the word of a step is recovered but for its image under `k + 1` shifts. -/
theorem xorRounds_xorWith_eq (k : Nat) (x : Word) : xorRounds f k (xorWith f x) = x ^^^ f^[k + 1] x := by
  induction k with
  | zero => rfl
  | succ k ih =>
    rw [xorRounds, ih, hf, xorWith, Function.iterate_succ_apply' f (k + 1), BitVec.xor_assoc, xor_cancel_left]

/-- A step after `k` rounds gives back their word but for its image under `k + 1` shifts. -/
theorem xorWith_xorRounds_eq (k : Nat) (y : Word) : xorWith f (xorRounds f k y) = y ^^^ f^[k + 1] y := by
  induction k with
  | zero => rfl
  | succ k ih =>
    calc xorWith f (xorRounds f (k + 1) y)
      _ = y ^^^ f (xorRounds f k y) ^^^ f (y ^^^ f (xorRounds f k y)) := rfl
      _ = y ^^^ f (y ^^^ xorWith f (xorRounds f k y)) := by
        rw [BitVec.xor_assoc, ← hf, xorWith]
        congr 2
        ac_rfl
      _ = y ^^^ f^[k + 2] y := by
        rw [ih, xor_cancel_left, Function.iterate_succ_apply' f (k + 1)]

variable {k : Nat} (hzero : ∀ x, f^[k + 1] x = 0#64)

include hzero

/-- Rounds enough to shift every bit out undo the step. -/
theorem xorRounds_xorWith (x : Word) : xorRounds f k (xorWith f x) = x := by
  rw [xorRounds_xorWith_eq hf, hzero, BitVec.xor_zero]

theorem xorWith_xorRounds (y : Word) : xorWith f (xorRounds f k y) = y := by
  rw [xorWith_xorRounds_eq hf, hzero, BitVec.xor_zero]

end Rounds

/-- Settles O38: three shifts by 26, four by 17, two by 33 and two by 39 leave no bit, and R123 runs one round less for
each step, last step first. -/
theorem temperIsABijection : Obligations.TemperIsABijection := by
  unfold Obligations.TemperIsABijection
  have hU : ∀ x, (shiftDown tU)^[2 + 1] x = 0#64 := shiftDown_iterate_eq_zero (by decide)
  have hS : ∀ x, (shiftMask tS tMaskB)^[3 + 1] x = 0#64 := shiftMask_iterate_eq_zero tMaskB (by decide)
  have hT : ∀ x, (shiftMask tT tMaskC)^[1 + 1] x = 0#64 := shiftMask_iterate_eq_zero tMaskC (by decide)
  have hL : ∀ x, (shiftDown tL)^[1 + 1] x = 0#64 := shiftDown_iterate_eq_zero (by decide)
  constructor
  · intro x
    rw [temper_eq_steps, untemper_eq_rounds, xorRounds_xorWith (xorLinear_shiftDown tL) hL,
      xorRounds_xorWith (xorLinear_shiftMask tT tMaskC) hT, xorRounds_xorWith (xorLinear_shiftMask tS tMaskB) hS,
      xorRounds_xorWith (xorLinear_shiftDown tU) hU]
  · intro d
    rw [temper_eq_steps, untemper_eq_rounds, xorWith_xorRounds (xorLinear_shiftDown tU) hU,
      xorWith_xorRounds (xorLinear_shiftMask tS tMaskB) hS, xorWith_xorRounds (xorLinear_shiftMask tT tMaskC) hT,
      xorWith_xorRounds (xorLinear_shiftDown tL) hL]

end Sys2Proof.Machine

/-! ## Rounding (R140, R142)

A value of at most 53 significant bits is called short. The short values at or above `2^52 * 2^e` are multiples of
`2^e`, so the neighbours between which a long value is rounded are the only two that can be nearest to it. What the
block's operations need of the rounding then follows from this one property: short values stay, order stays. -/

namespace Sys2Proof.Machine

/-- A number of at most 53 significant bits, its exponent not bounded (log 12). -/
def IsShort (v : ℚ) : Prop := ∃ q : Scaled, q.mant ≤ 2 ^ 53 ∧ q.value = v

theorem Scaled.value_mk (m : Nat) (e : Int) : (Scaled.mk m e).value = (m : ℚ) * 2 ^ e := rfl

theorem isShort_mk {m : Nat} (h : m ≤ 2 ^ 53) (e : Int) : IsShort ((m : ℚ) * 2 ^ e) := ⟨⟨m, e⟩, h, rfl⟩

theorem two_zpow_add_natCast (e : Int) (k : Nat) : (2 : ℚ) ^ (e + k) = 2 ^ k * 2 ^ e := by
  rw [zpow_add₀ two_ne_zero, zpow_natCast, mul_comm]

/-- No short value lies strictly between neighbours `m * 2^e` and `(m + 1) * 2^e` of full length. -/
theorem IsShort.le_or_ge {v : ℚ} (hv : IsShort v) {m : Nat} (hm : 2 ^ 52 ≤ m) (e : Int) :
    v ≤ (m : ℚ) * 2 ^ e ∨ ((m : ℚ) + 1) * 2 ^ e ≤ v := by
  obtain ⟨⟨k, f⟩, hk, rfl⟩ := hv
  simp only [Scaled.value] at hk ⊢
  obtain hf | hf := le_or_gt e f
  · obtain ⟨d, rfl⟩ := Int.le.dest hf
    have hval : (k : ℚ) * 2 ^ (e + d : ℤ) = ((k * 2 ^ d : ℕ) : ℚ) * 2 ^ e := by
      rw [two_zpow_add_natCast]
      push_cast
      ring
    rw [hval]
    obtain h | h := Nat.lt_or_ge m (k * 2 ^ d)
    · exact .inr (by gcongr; exact_mod_cast h)
    · exact .inl (by gcongr)
  · left
    calc (k : ℚ) * 2 ^ f
      _ ≤ 2 ^ 53 * 2 ^ f := by gcongr; exact_mod_cast hk
      _ = 2 ^ 52 * 2 ^ (f + 1) := by rw [zpow_add_one₀ two_ne_zero]; ring
      _ ≤ (m : ℚ) * 2 ^ e := by
        gcongr
        · exact_mod_cast hm
        · exact one_le_two
        · exact hf

/-- A long number as R142 cuts it: 53 significant bits and a rest of `t + 1` bits. -/
theorem exists_quotient {n : Nat} (h : 2 ^ 53 ≤ n) :
    ∃ m t r, 2 ^ 52 ≤ m ∧ m < 2 ^ 53 ∧ r < 2 ^ (t + 1) ∧ n = m * 2 ^ (t + 1) + r := by
  have hlog : 53 ≤ n.log2 := (Nat.le_log2 (by omega)).mpr h
  obtain ⟨t, ht⟩ : ∃ t, n.log2 = 52 + (t + 1) := ⟨n.log2 - 53, by omega⟩
  refine ⟨n / 2 ^ (t + 1), t, n % 2 ^ (t + 1), ?_, ?_, Nat.mod_lt _ (by positivity), (Nat.div_add_mod' ..).symm⟩
  · rw [Nat.le_div_iff_mul_le (by positivity), ← pow_add, ← ht]
    exact Nat.log2_self_le (by omega)
  · rw [Nat.div_lt_iff_lt_mul (by positivity), ← pow_add, show 53 + (t + 1) = n.log2 + 1 by omega]
    exact Nat.lt_log2_self

/-- The algorithm of R142 on a number cut so: up from above the half, up from the half if the quotient is odd. -/
theorem roundNearest_quotient {m t r : Nat} (hm : 2 ^ 52 ≤ m) (hm' : m < 2 ^ 53) (hr : r < 2 ^ (t + 1)) (e : Int) :
    roundNearest ⟨m * 2 ^ (t + 1) + r, e⟩ =
      if r > 2 ^ t ∨ r = 2 ^ t ∧ m % 2 = 1 then ⟨m + 1, e + (t + 1 : ℕ)⟩ else ⟨m, e + (t + 1 : ℕ)⟩ := by
  have hlo : 2 ^ (53 + t) ≤ m * 2 ^ (t + 1) + r :=
    calc 2 ^ (53 + t)
      _ = 2 ^ 52 * 2 ^ (t + 1) := by rw [← pow_add]; congr 1; omega
      _ ≤ m * 2 ^ (t + 1) + r := Nat.le_add_right_of_le (Nat.mul_le_mul_right _ hm)
  have hhi : m * 2 ^ (t + 1) + r < 2 ^ (53 + t + 1) :=
    calc m * 2 ^ (t + 1) + r
      _ < (m + 1) * 2 ^ (t + 1) := by rw [Nat.add_one_mul]; omega
      _ ≤ 2 ^ 53 * 2 ^ (t + 1) := Nat.mul_le_mul_right _ hm'
      _ = 2 ^ (53 + t + 1) := by rw [← pow_add, Nat.add_assoc]
  have hlong : 2 ^ 53 ≤ m * 2 ^ (t + 1) + r := le_trans (Nat.pow_le_pow_right two_pos (by omega)) hlo
  have hlog : (m * 2 ^ (t + 1) + r).log2 = 53 + t := (Nat.log2_eq_iff (by omega)).mpr ⟨hlo, hhi⟩
  have hcut : (m * 2 ^ (t + 1) + r).log2 + 1 - 53 = t + 1 := by omega
  have hdiv : (m * 2 ^ (t + 1) + r) >>> (t + 1) = m := by
    rw [Nat.shiftRight_eq_div_pow, Nat.mul_comm, Nat.mul_add_div (by positivity), Nat.div_eq_of_lt hr, Nat.add_zero]
  have hmod : (m * 2 ^ (t + 1) + r) % 2 ^ (t + 1) = r := by
    rw [Nat.mul_comm, Nat.mul_add_mod, Nat.mod_eq_of_lt hr]
  unfold roundNearest
  rw [if_neg (by simpa using hlong)]
  simp only [hcut, hdiv, hmod, Nat.add_sub_cancel]

theorem value_quotient (m t r : Nat) (e : Int) :
    (Scaled.mk (m * 2 ^ (t + 1) + r) e).value = (m + r / 2 ^ (t + 1)) * 2 ^ (e + (t + 1 : ℕ)) := by
  rw [Scaled.value_mk, two_zpow_add_natCast]
  push_cast
  field_simp

/-- `q` is rounded to the lower or to the upper of the neighbours of significands `m` and `m + 1` as it lies below or
above the middle of them; in the middle the even one is taken. -/
def RoundsBetween (q : Scaled) (m : Nat) (e : Int) : Prop :=
  (roundNearest q = ⟨m, e⟩ ∧ (q.value < (m + 1 / 2) * 2 ^ e ∨ q.value = (m + 1 / 2) * 2 ^ e ∧ m % 2 = 0)) ∨
  (roundNearest q = ⟨m + 1, e⟩ ∧ ((m + 1 / 2) * 2 ^ e < q.value ∨ q.value = (m + 1 / 2) * 2 ^ e ∧ m % 2 = 1))

/-- A value of more than 53 bits lies between two neighbours and is rounded between them. -/
theorem roundNearest_long {q : Scaled} (h : 2 ^ 53 ≤ q.mant) :
    ∃ (m : Nat) (e : Int), 2 ^ 52 ≤ m ∧ m < 2 ^ 53 ∧
      (m : ℚ) * 2 ^ e ≤ q.value ∧ q.value < ((m : ℚ) + 1) * 2 ^ e ∧ RoundsBetween q m e := by
  obtain ⟨n, e⟩ := q
  obtain ⟨m, t, r, hm, hm', hr, rfl⟩ := exists_quotient h
  refine ⟨m, e + (t + 1 : ℕ), hm, hm', ?_, ?_, ?_⟩
  · rw [value_quotient]
    gcongr
    exact le_add_of_nonneg_right (by positivity)
  · rw [value_quotient]
    gcongr
    rw [div_lt_one (by positivity)]
    exact_mod_cast hr
  · have hhalf : (r : ℚ) / 2 ^ (t + 1) = r / 2 ^ t * (1 / 2) := by rw [pow_succ]; field_simp
    have hpos : (0 : ℚ) < 2 ^ t := by positivity
    unfold RoundsBetween
    rw [roundNearest_quotient hm hm' hr, value_quotient, hhalf]
    obtain hlt | rfl | hgt := lt_trichotomy r (2 ^ t)
    · have hfrac : (r : ℚ) / 2 ^ t < 1 := (div_lt_one hpos).mpr (by exact_mod_cast hlt)
      rw [if_neg (by omega)]
      refine .inl ⟨rfl, .inl ?_⟩
      gcongr
      linarith
    · have hfrac : ((2 ^ t : ℕ) : ℚ) / 2 ^ t * (1 / 2) = 1 / 2 := by
        rw [Nat.cast_pow, Nat.cast_ofNat, div_self hpos.ne', one_mul]
      rw [hfrac]
      obtain heven | hodd := Nat.mod_two_eq_zero_or_one m
      · rw [if_neg (by omega)]
        exact .inl ⟨rfl, .inr ⟨rfl, heven⟩⟩
      · rw [if_pos (.inr ⟨rfl, hodd⟩)]
        exact .inr ⟨rfl, .inr ⟨rfl, hodd⟩⟩
    · have hfrac : 1 < (r : ℚ) / 2 ^ t := (one_lt_div hpos).mpr (by exact_mod_cast hgt)
      rw [if_pos (.inl hgt)]
      refine .inr ⟨rfl, .inl ?_⟩
      gcongr
      linarith

/-- From the lower half between two neighbours the lower one is nearest; the middle alone has another as near. -/
theorem lower_neighbour_nearest {l h v c : ℚ} (hl : l ≤ v) (hmid : v ≤ (l + h) / 2) (hc : c ≤ l ∨ h ≤ c) :
    |l - v| ≤ |c - v| ∧ (c ≠ l → |l - v| = |c - v| → v = (l + h) / 2) := by
  rw [abs_of_nonpos (sub_nonpos.mpr hl)]
  obtain hc | hc := hc
  · rw [abs_of_nonpos (by linarith)]
    exact ⟨by linarith, fun hne heq => absurd (by linarith) hne⟩
  · rw [abs_of_nonneg (by linarith)]
    exact ⟨by linarith, fun _ heq => by linarith⟩

/-- The same from the upper half, by reflection. -/
theorem upper_neighbour_nearest {l h v c : ℚ} (hh : v ≤ h) (hmid : (l + h) / 2 ≤ v) (hc : c ≤ l ∨ h ≤ c) :
    |h - v| ≤ |c - v| ∧ (c ≠ h → |h - v| = |c - v| → v = (l + h) / 2) := by
  have hdist : ∀ a : ℚ, |-a - -v| = |a - v| := fun a => by rw [← neg_sub', abs_neg]
  obtain ⟨hle, htie⟩ := lower_neighbour_nearest (neg_le_neg hh) (h := -l) (by linarith)
    (hc.symm.imp neg_le_neg neg_le_neg)
  rw [hdist, hdist] at hle htie
  exact ⟨hle, fun hne heq => by linarith [htie (neg_injective.ne hne) heq]⟩

/-- Settles O44: a short value lies at or below the lower or at or above the upper neighbour, and of these two the
rounding takes the nearer one, or the even one where both are as near. -/
theorem roundingIsToNearestEven : Obligations.RoundingIsToNearestEven := by
  unfold Obligations.RoundingIsToNearestEven
  intro q m e hm
  obtain hq | hq := Nat.lt_or_ge q.mant (2 ^ 53)
  · rw [roundNearest_exact hq, sub_self, abs_zero]
    exact ⟨hq.le, abs_nonneg _, fun hne heq => absurd (sub_eq_zero.mp (abs_eq_zero.mp heq.symm)) hne⟩
  · obtain ⟨k, f, hk, hk', hlo, hhi, hround⟩ := roundNearest_long hq
    have hside := (isShort_mk hm e).le_or_ge hk f
    have hmiddle : ((k : ℚ) + 1 / 2) * 2 ^ f = (k * 2 ^ f + (k + 1) * 2 ^ f) / 2 := by ring
    rw [← Scaled.value_mk m e] at hside
    unfold RoundsBetween at hround
    rw [hmiddle] at hround
    obtain ⟨hR, hv⟩ | ⟨hR, hv⟩ := hround
    · obtain ⟨hle, htie⟩ := lower_neighbour_nearest hlo (hv.elim le_of_lt fun h => h.1.le) hside
      rw [hR]
      exact ⟨hk'.le, hle, fun hne heq => hv.elim (fun h => absurd (htie hne heq) h.ne) And.right⟩
    · obtain ⟨hle, htie⟩ := upper_neighbour_nearest hhi.le (hv.elim le_of_lt fun h => h.1.ge) hside
      rw [hR, Scaled.value_mk, Nat.cast_add_one]
      refine ⟨hk', hle, fun hne heq => ?_⟩
      have hodd := hv.elim (fun h => absurd (htie hne heq) h.ne') And.right
      dsimp only
      omega

/-! The rounding by values alone: what the nearest short value must be. -/

theorem mant_roundNearest_le (q : Scaled) : (roundNearest q).mant ≤ 2 ^ 53 :=
  (roundingIsToNearestEven q 0 0 (by norm_num)).1

theorem isShort_roundNearest (q : Scaled) : IsShort (roundNearest q).value :=
  ⟨roundNearest q, mant_roundNearest_le q, rfl⟩

theorem roundNearest_nearest (q : Scaled) {v : ℚ} (hv : IsShort v) :
    |(roundNearest q).value - q.value| ≤ |v - q.value| := by
  obtain ⟨⟨m, e⟩, hm, rfl⟩ := hv
  exact (roundingIsToNearestEven q m e hm).2.1

/-- An operation whose exact result is short does not round. -/
theorem value_roundNearest_of_isShort {q : Scaled} (h : IsShort q.value) : (roundNearest q).value = q.value := by
  have hdist := roundNearest_nearest q h
  rw [sub_self, abs_zero] at hdist
  exact sub_eq_zero.mp (abs_nonpos_iff.mp hdist)

theorem value_roundNearest_mono {q r : Scaled} (h : q.value < r.value) :
    (roundNearest q).value ≤ (roundNearest r).value := by
  by_contra! hlt
  have hq := sq_le_sq.mpr (roundNearest_nearest q (isShort_roundNearest r))
  have hr := sq_le_sq.mpr (roundNearest_nearest r (isShort_roundNearest q))
  have hcross := mul_pos (sub_pos.mpr hlt) (sub_pos.mpr h)
  linarith

theorem value_roundNearest_le {q : Scaled} {v : ℚ} (hv : IsShort v) (h : q.value ≤ v) : (roundNearest q).value ≤ v := by
  by_contra! hlt
  have hdist := roundNearest_nearest q hv
  rw [abs_of_nonneg (by linarith), abs_of_nonneg (by linarith)] at hdist
  linarith

/-- From the lower half between two neighbours the lower one is taken. -/
theorem value_roundNearest_of_lt_middle {q : Scaled} {m : Nat} {e : Int} (hm : 2 ^ 52 ≤ m) (hm' : m < 2 ^ 53)
    (hlo : (m : ℚ) * 2 ^ e ≤ q.value) (hhi : q.value < (m + 1 / 2) * 2 ^ e) :
    (roundNearest q).value = m * 2 ^ e := by
  have hnear := roundNearest_nearest q (isShort_mk hm'.le e)
  rw [abs_of_nonpos (sub_nonpos.mpr hlo)] at hnear
  obtain ⟨hneg, hpos⟩ := abs_le.mp hnear
  obtain h | h := (isShort_roundNearest q).le_or_ge hm e
  · linarith
  · linarith

end Sys2Proof.Machine

/-! ## Patterns (R142)

A positive value has one normal form `m * 2^e` with `2^52 ≤ m < 2^53`. In the normal range its pattern, as a number, is
`(e + 1074) * 2^52 + m`: patterns are in the order of the values, and the step to a neighbour is 1. -/

namespace Sys2Proof.Machine

/-- `m * 2^e` is the normal form of `q`: 53 significant bits, the first one set. -/
structure Scaled.HasNormalForm (q : Scaled) (m : Nat) (e : Int) : Prop where
  le : 2 ^ 52 ≤ m
  lt : m < 2 ^ 53
  value : q.value = (m : ℚ) * 2 ^ e

theorem log2_mul_two_pow {n : Nat} (hn : n ≠ 0) (k : Nat) : (n * 2 ^ k).log2 = n.log2 + k := by
  rw [Nat.log2_eq_iff (by positivity), pow_add, Nat.add_right_comm, pow_add]
  exact ⟨Nat.mul_le_mul_right _ (Nat.log2_self_le hn), Nat.mul_lt_mul_of_pos_right Nat.lt_log2_self (by positivity)⟩

theorem log2_of_normal {m : Nat} (hm : 2 ^ 52 ≤ m) (hm' : m < 2 ^ 53) : m.log2 = 52 :=
  (Nat.log2_eq_iff (by omega)).mpr ⟨hm, hm'⟩

/-- Equal values differ in how many low zeros the significand has. -/
theorem mant_eq_of_value_eq {n m d : Nat} {e : Int} (h : (Scaled.mk n e).value = (m : ℚ) * 2 ^ (e + d)) :
    n = m * 2 ^ d := by
  rw [Scaled.value_mk, two_zpow_add_natCast, ← mul_assoc] at h
  exact_mod_cast mul_right_cancel₀ (zpow_ne_zero e two_ne_zero) h

theorem toPattern_of_significand {n m : Nat} {e f : Int} (hn : n ≠ 0)
    (hm : (if n.log2 ≤ 52 then n <<< (52 - n.log2) else n >>> (n.log2 - 52)) = m) (he : f + n.log2 - 52 = e) :
    toPattern ⟨n, f⟩ = BitVec.ofNat 64 ((e + 1075).toNat * 2 ^ 52 + (m - 2 ^ 52)) := by
  subst hm he
  exact if_neg hn

namespace Scaled.HasNormalForm

variable {q : Scaled} {m : Nat} {e : Int}

/-- The pattern is built from the normal form, however the value is held. -/
theorem toPattern_eq (h : q.HasNormalForm m e) :
    toPattern q = BitVec.ofNat 64 ((e + 1075).toNat * 2 ^ 52 + (m - 2 ^ 52)) := by
  obtain ⟨n, f⟩ := q
  obtain ⟨hm, hm', hv⟩ := h
  have hlog := log2_of_normal hm hm'
  obtain hle | hle := le_total f e
  · obtain ⟨d, rfl⟩ := Int.le.dest hle
    obtain rfl := mant_eq_of_value_eq hv
    have hlog' : (m * 2 ^ d).log2 = 52 + d := by rw [log2_mul_two_pow (by omega), hlog]
    refine toPattern_of_significand (by positivity) ?_ (by omega)
    rw [hlog']
    split
    · obtain rfl : d = 0 := by omega
      simp
    · rw [Nat.add_sub_cancel_left, Nat.shiftRight_eq_div_pow, Nat.mul_div_cancel _ (by positivity)]
  · obtain ⟨d, rfl⟩ := Int.le.dest hle
    obtain rfl : m = n * 2 ^ d := mant_eq_of_value_eq hv.symm
    have hn : n ≠ 0 := by rintro rfl; omega
    rw [log2_mul_two_pow hn] at hlog
    refine toPattern_of_significand hn ?_ (by omega)
    rw [if_pos (by omega), Nat.shiftLeft_eq, show 52 - n.log2 = d by omega]

/-- In the normal range the pattern counts the patterns below it. -/
theorem toNat_toPattern (h : q.HasNormalForm m e) (he : -1074 ≤ e) (he' : e ≤ 971) :
    ((toPattern q).toNat : ℤ) = (e + 1074) * 2 ^ 52 + m := by
  have hm := h.le
  have hm' := h.lt
  obtain ⟨k, hk, hk'⟩ : ∃ k : Nat, (e + 1075).toNat = k + 1 ∧ e + 1074 = k := ⟨(e + 1074).toNat, by omega, by omega⟩
  rw [h.toPattern_eq, BitVec.toNat_ofNat, hk, hk', Nat.mod_eq_of_lt (by omega)]
  omega

theorem patternValue_toPattern (h : q.HasNormalForm m e) (he : -1074 ≤ e) (he' : e ≤ 971) :
    Spec.patternValue (toPattern q) = q.value := by
  have hm := h.le
  have hm' := h.lt
  have hnat := h.toNat_toPattern he he'
  have hfield : ((toPattern q).extractLsb' 52 11).toNat = (e + 1075).toNat := by
    rw [BitVec.extractLsb'_toNat, Nat.shiftRight_eq_div_pow]
    omega
  have hfraction : 2 ^ 52 + ((toPattern q).extractLsb' 0 52).toNat = m := by
    rw [BitVec.extractLsb'_toNat, Nat.shiftRight_zero]
    omega
  unfold Spec.patternValue
  simp only [hfield, hfraction]
  rw [if_neg (by omega), h.value]
  congr 2
  omega

end Scaled.HasNormalForm

/-- A positive value of at most 53 bits has a normal form. -/
theorem exists_normalForm {q : Scaled} (hq : q.mant ≠ 0) (hq' : q.mant ≤ 2 ^ 53) : ∃ m e, q.HasNormalForm m e := by
  obtain ⟨n, f⟩ := q
  obtain hn | rfl : n < 2 ^ 53 ∨ n = 2 ^ 53 := Nat.lt_or_eq_of_le hq'
  · have hlog : n.log2 < 53 := (Nat.log2_lt hq).mpr hn
    have hcut := Nat.add_sub_of_le (Nat.le_of_lt_succ hlog)
    refine ⟨n * 2 ^ (52 - n.log2), f - (52 - n.log2 : ℕ), ?_, ?_, ?_⟩
    · calc 2 ^ 52
        _ = 2 ^ n.log2 * 2 ^ (52 - n.log2) := by rw [← pow_add, hcut]
        _ ≤ n * 2 ^ (52 - n.log2) := Nat.mul_le_mul_right _ (Nat.log2_self_le hq)
    · calc n * 2 ^ (52 - n.log2)
        _ < 2 ^ (n.log2 + 1) * 2 ^ (52 - n.log2) := Nat.mul_lt_mul_of_pos_right Nat.lt_log2_self (by positivity)
        _ = 2 ^ 53 := by rw [← pow_add, Nat.add_right_comm, hcut]
    · rw [Scaled.value_mk, Nat.cast_mul, Nat.cast_pow, Nat.cast_ofNat, mul_assoc, ← two_zpow_add_natCast,
        sub_add_cancel]
  · exact ⟨2 ^ 52, f + 1, le_rfl, by norm_num, by rw [Scaled.value_mk, zpow_add_one₀ two_ne_zero]; push_cast; ring⟩

theorem Scaled.value_eq_zero_iff {q : Scaled} : q.value = 0 ↔ q.mant = 0 := by
  simp [Scaled.value, zpow_ne_zero]

/-- A value has one pattern, however it is held. -/
theorem toPattern_congr {q r : Scaled} (hq : q.mant ≤ 2 ^ 53) (h : q.value = r.value) : toPattern q = toPattern r := by
  obtain hzero | hq0 := eq_or_ne q.mant 0
  · have hzero' : r.mant = 0 := by rw [← Scaled.value_eq_zero_iff, ← h, Scaled.value_eq_zero_iff, hzero]
    unfold toPattern
    rw [if_pos hzero, if_pos hzero']
  · obtain ⟨m, e, hn⟩ := exists_normalForm hq0 hq
    have hn' : r.HasNormalForm m e := ⟨hn.le, hn.lt, h ▸ hn.value⟩
    rw [hn.toPattern_eq, hn'.toPattern_eq]

/-- Between powers of two the exponent is bounded, and the upper power itself has the least significand. -/
theorem exists_normalForm_between {q : Scaled} {a b : Int} (hq : q.mant ≤ 2 ^ 53) (ha : (2 : ℚ) ^ a ≤ q.value)
    (hb : q.value ≤ 2 ^ b) : ∃ m e, q.HasNormalForm m e ∧ a - 52 ≤ e ∧ (e < b - 52 ∨ e = b - 52 ∧ m = 2 ^ 52) := by
  have hpos : (0 : ℚ) < 2 ^ a := by positivity
  have hq0 : q.mant ≠ 0 := fun h => by rw [← Scaled.value_eq_zero_iff] at h; linarith
  obtain ⟨m, e, hn⟩ := exists_normalForm hq0 hq
  have hm : (2 : ℚ) ^ 52 ≤ m := by exact_mod_cast hn.le
  have hm' : (m : ℚ) < 2 ^ 53 := by exact_mod_cast hn.lt
  rw [hn.value] at ha hb
  refine ⟨m, e, hn, ?_, ?_⟩
  · have hlt : (2 : ℚ) ^ a < 2 ^ (e + (53 : ℕ)) :=
      calc (2 : ℚ) ^ a
        _ ≤ m * 2 ^ e := ha
        _ < 2 ^ 53 * 2 ^ e := by gcongr
        _ = 2 ^ (e + (53 : ℕ)) := (two_zpow_add_natCast e 53).symm
    rw [zpow_lt_zpow_iff_right₀ one_lt_two] at hlt
    omega
  · have hle : (2 : ℚ) ^ (e + (52 : ℕ)) ≤ 2 ^ b :=
      calc (2 : ℚ) ^ (e + (52 : ℕ))
        _ = 2 ^ 52 * 2 ^ e := two_zpow_add_natCast e 52
        _ ≤ m * 2 ^ e := by gcongr
        _ ≤ 2 ^ b := hb
    rw [zpow_le_zpow_iff_right₀ one_lt_two] at hle
    obtain hlt | rfl : e < b - 52 ∨ b = e + (52 : ℕ) := by omega
    · exact .inl hlt
    · rw [two_zpow_add_natCast] at hb
      have hmle : (m : ℚ) ≤ 2 ^ 52 := le_of_mul_le_mul_right hb (by positivity)
      exact .inr ⟨by omega, le_antisymm (by exact_mod_cast hmle) hn.le⟩

/-- The pattern of a value between two powers of two lies between their patterns. -/
theorem toNat_toPattern_between {q : Scaled} {a b : Int} (hq : q.mant ≤ 2 ^ 53) (ha : (2 : ℚ) ^ a ≤ q.value)
    (hb : q.value ≤ 2 ^ b) (ha' : -1022 ≤ a) (hb' : b ≤ 1023) :
    (a + 1023) * 2 ^ 52 ≤ (toPattern q).toNat ∧ (toPattern q).toNat ≤ (b + 1023) * 2 ^ 52 := by
  obtain ⟨m, e, hn, hae, hbe⟩ := exists_normalForm_between hq ha hb
  have hm := hn.le
  have hm' := hn.lt
  rw [hn.toNat_toPattern (by omega) (by omega)]
  omega

theorem patternValue_toPattern_between {q : Scaled} {a b : Int} (hq : q.mant ≤ 2 ^ 53) (ha : (2 : ℚ) ^ a ≤ q.value)
    (hb : q.value ≤ 2 ^ b) (ha' : -1022 ≤ a) (hb' : b ≤ 1023) : Spec.patternValue (toPattern q) = q.value := by
  obtain ⟨m, e, hn, hae, hbe⟩ := exists_normalForm_between hq ha hb
  exact hn.patternValue_toPattern (by omega) (by omega)

end Sys2Proof.Machine

/-! ## The constants and the conversion (R141, R142) -/

namespace Sys2Proof.Machine

theorem value_kClosed : kClosed.value = (2 : ℚ) ^ (-64 : ℤ) := by norm_num [kClosed, Scaled.value]
theorem value_kHalf : kHalf.value = (2 ^ 53 - 1) * (2 : ℚ) ^ (-117 : ℤ) := by norm_num [kHalf, Scaled.value]
theorem value_kOpen : kOpen.value = (2 : ℚ) ^ (-52 : ℤ) := by norm_num [kOpen, Scaled.value]
theorem value_oneHalf : oneHalf.value = 1 / 2 := by norm_num [oneHalf, Scaled.value]

/-- Settles O46: each constant lies nearer to its literal than 2^-119, or 2^-107 for the third. -/
theorem constantsAreTheLiteralsRounded : Obligations.ConstantsAreTheLiteralsRounded := by
  unfold Obligations.ConstantsAreTheLiteralsRounded
  rw [value_kClosed, value_kHalf, value_kOpen]
  refine ⟨⟨rfl, by decide, ?_⟩, ⟨by norm_num, by decide, ?_⟩, rfl, by decide, ?_⟩ <;>
    rw [abs_lt] <;> norm_num

theorem Scaled.value_nonneg (q : Scaled) : 0 ≤ q.value := by
  unfold Scaled.value
  positivity

@[simp] theorem Scaled.value_mul (a b : Scaled) : (a.mul b).value = a.value * b.value := by
  simp only [Scaled.mul, Scaled.value, Nat.cast_mul, zpow_add₀ (two_ne_zero' ℚ)]
  ring

/-- A value held at a smaller exponent. -/
theorem value_lower_expo {n : Nat} {e f : Int} (h : f ≤ e) :
    ((n * 2 ^ (e - f).toNat : ℕ) : ℚ) * 2 ^ f = n * 2 ^ e := by
  rw [Nat.cast_mul, Nat.cast_pow, Nat.cast_ofNat, mul_assoc, ← two_zpow_add_natCast,
    Int.toNat_of_nonneg (by omega), add_sub_cancel]

@[simp] theorem Scaled.value_add (a b : Scaled) : (a.add b).value = a.value + b.value := by
  simp only [Scaled.add, Scaled.value]
  rw [Nat.cast_add, add_mul, value_lower_expo (min_le_left _ _), value_lower_expo (min_le_right _ _)]

theorem IsShort.mul_two_zpow {v : ℚ} (h : IsShort v) (e : Int) : IsShort (v * 2 ^ e) := by
  obtain ⟨q, hq, rfl⟩ := h
  exact ⟨⟨q.mant, q.expo + e⟩, hq, by rw [Scaled.value, Scaled.value, zpow_add₀ two_ne_zero, mul_assoc]⟩

theorem value_natCast (n : Nat) : (Scaled.mk n 0).value = n := by simp [Scaled.value]

theorem isShort_natCast {n : Nat} (h : n ≤ 2 ^ 53) : IsShort n := ⟨⟨n, 0⟩, h, value_natCast n⟩

theorem isShort_u64ToF64 (x : Word) : IsShort (u64ToF64 x).value := isShort_roundNearest _

theorem value_u64ToF64_of_le {x : Word} (h : x.toNat ≤ 2 ^ 53) : (u64ToF64 x).value = x.toNat := by
  rw [u64ToF64, value_roundNearest_of_isShort ((value_natCast _).symm ▸ isShort_natCast h), value_natCast]

theorem value_u64ToF64_mono {x y : Word} (h : x ≤ y) : (u64ToF64 x).value ≤ (u64ToF64 y).value := by
  obtain heq | hlt := Nat.eq_or_lt_of_le (BitVec.le_def.mp h)
  · rw [BitVec.eq_of_toNat_eq heq]
  · exact value_roundNearest_mono (by rw [value_natCast, value_natCast]; exact_mod_cast hlt)

theorem value_u64ToF64_zero : (u64ToF64 0#64).value = 0 := value_u64ToF64_of_le (by decide)

theorem one_le_value_u64ToF64 {x : Word} (h : x ≠ 0#64) : 1 ≤ (u64ToF64 x).value := by
  have hone : (u64ToF64 1#64).value = 1 := value_u64ToF64_of_le (by decide)
  rw [← hone]
  exact value_u64ToF64_mono (by bv_omega)

theorem value_u64ToF64_le (x : Word) : (u64ToF64 x).value ≤ 2 ^ 64 := by
  have hx : (x.toNat : ℚ) ≤ 2 ^ 64 := by exact_mod_cast x.isLt.le
  refine value_roundNearest_le ⟨⟨1, 64⟩, by norm_num, ?_⟩ ?_
  · norm_num [Scaled.value]
  · rwa [value_natCast]

theorem value_u64ToF64_eq_zero_iff {x : Word} : (u64ToF64 x).value = 0 ↔ x = 0#64 := by
  constructor
  · intro h
    by_contra hx
    linarith [one_le_value_u64ToF64 hx]
  · rintro rfl
    exact value_u64ToF64_zero

/-- The normal form of a rounded word that is not zero: from 1, that is `2^52 * 2^-52`, to `2^52 * 2^12`. -/
theorem exists_normalForm_u64ToF64 {x : Word} (h : x ≠ 0#64) :
    ∃ m e, (u64ToF64 x).HasNormalForm m e ∧ -52 ≤ e ∧ e ≤ 12 := by
  obtain ⟨m, e, hn, hlo, hhi⟩ := exists_normalForm_between (a := 0) (b := 64) (mant_roundNearest_le _)
    (by rw [zpow_zero]; exact one_le_value_u64ToF64 h) (value_u64ToF64_le x)
  exact ⟨m, e, hn, by omega, by omega⟩

/-! ## The three results (R143, R144, R145) -/

theorem value_closedValue (x : Word) : (closedValue x).value = (u64ToF64 x).value * 2 ^ (-64 : ℤ) := by
  have hmul : ((u64ToF64 x).mul kClosed).value = (u64ToF64 x).value * 2 ^ (-64 : ℤ) := by
    rw [Scaled.value_mul, value_kClosed]
  rw [closedValue, value_roundNearest_of_isShort (hmul ▸ (isShort_u64ToF64 x).mul_two_zpow _), hmul]

/-- Multiplying by a power of two moves the exponent. -/
theorem Scaled.HasNormalForm.mul_two_zpow {q r : Scaled} {m : Nat} {e f : Int} (h : q.HasNormalForm m e)
    (hr : r.value = q.value * 2 ^ f) : r.HasNormalForm m (e + f) :=
  ⟨h.le, h.lt, by rw [hr, h.value, zpow_add₀ two_ne_zero, mul_assoc]⟩

/-- Settles O47: the product by a power of two is not rounded, and moves the exponent field alone. -/
theorem closedOutputIsTheRoundedWordScaled : Obligations.ClosedOutputIsTheRoundedWordScaled := by
  unfold Obligations.ClosedOutputIsTheRoundedWordScaled
  refine ⟨by decide, fun x => ⟨value_closedValue x, fun hx => ?_⟩⟩
  obtain ⟨m, e, hn, hlo, hhi⟩ := exists_normalForm_u64ToF64 hx
  have hword := hn.toNat_toPattern (by omega) (by omega)
  have hclosed := (hn.mul_two_zpow (value_closedValue x)).toNat_toPattern (by omega) (by omega)
  have hm := hn.le
  rw [Spec.closedPattern]
  bv_omega

theorem value_halfOpenProduct (x : Word) :
    ((u64ToF64 x).mul kHalf).value = (u64ToF64 x).value * ((2 ^ 53 - 1) * 2 ^ (-117 : ℤ)) := by
  rw [Scaled.value_mul, value_kHalf]

/-- The product of R144 over the full step of the closed result: `m - m / 2^53` of them. -/
theorem value_halfOpenProduct_of_normalForm {x : Word} {m : Nat} {e : Int} (h : (u64ToF64 x).HasNormalForm m e) :
    ((u64ToF64 x).mul kHalf).value = (m - m / 2 ^ 53) * 2 ^ (e - 64) := by
  rw [value_halfOpenProduct, h.value, show e - 64 = e + (-117) + (53 : ℕ) by omega, two_zpow_add_natCast,
    zpow_add₀ two_ne_zero]
  ring

/-- Above the least significand the product lies less than half a step above the value one step below the closed one. -/
theorem halfOpenValue_normalForm_of_lt {x : Word} {m : Nat} {e : Int} (h : (u64ToF64 x).HasNormalForm m e)
    (hm : 2 ^ 52 < m) : (halfOpenValue x).HasNormalForm (m - 1) (e - 64) := by
  have hm' := h.lt
  have hcast : ((m - 1 : ℕ) : ℚ) = m - 1 := by rw [Nat.cast_sub (by omega), Nat.cast_one]
  have hlo : (2 : ℚ) ^ 52 < m := by exact_mod_cast hm
  have hhi : (m : ℚ) < 2 ^ 53 := by exact_mod_cast hm'
  refine ⟨by omega, by omega, value_roundNearest_of_lt_middle (by omega) (by omega) ?_ ?_⟩
  · rw [value_halfOpenProduct_of_normalForm h, hcast]
    gcongr
    linarith
  · rw [value_halfOpenProduct_of_normalForm h, hcast]
    gcongr
    linarith

/-- At the least significand the value one step below has an exponent less by one, and is the product itself. -/
theorem halfOpenValue_normalForm_of_eq {x : Word} {e : Int} (h : (u64ToF64 x).HasNormalForm (2 ^ 52) e) :
    (halfOpenValue x).HasNormalForm (2 ^ 53 - 1) (e - 65) := by
  have hproduct : ((u64ToF64 x).mul kHalf).value = ((2 ^ 53 - 1 : ℕ) : ℚ) * 2 ^ (e - 65) := by
    rw [value_halfOpenProduct_of_normalForm h, show e - 64 = e - 65 + (1 : ℕ) by omega, two_zpow_add_natCast]
    norm_num
    ring
  refine ⟨by norm_num, by norm_num, ?_⟩
  rw [halfOpenValue, value_roundNearest_of_isShort (hproduct ▸ isShort_mk (by norm_num) _), hproduct]

/-- The half-open value is one step below the closed one, at most one exponent lower. -/
theorem exists_normalForm_halfOpenValue {x : Word} {m : Nat} {e : Int} (h : (u64ToF64 x).HasNormalForm m e) :
    ∃ m' e', (halfOpenValue x).HasNormalForm m' e' ∧ e - 65 ≤ e' ∧ e' ≤ e - 64 ∧
      e' * 2 ^ 52 + m' = (e - 64) * 2 ^ 52 + m - 1 := by
  obtain hlt | rfl := Nat.lt_or_eq_of_le h.le
  · exact ⟨_, _, halfOpenValue_normalForm_of_lt h hlt, by omega, by omega, by omega⟩
  · exact ⟨_, _, halfOpenValue_normalForm_of_eq h, by omega, by omega, by omega⟩

theorem halfOpenPattern_of_ne_zero {x : Word} (hx : x ≠ 0#64) :
    Spec.halfOpenPattern x = Spec.closedPattern x - 1#64 := by
  obtain ⟨m, e, hn, hlo, hhi⟩ := exists_normalForm_u64ToF64 hx
  obtain ⟨m', e', hn', hlo', hhi', hstep⟩ := exists_normalForm_halfOpenValue hn
  have hclosed := (hn.mul_two_zpow (value_closedValue x)).toNat_toPattern (by omega) (by omega)
  have hhalf := hn'.toNat_toPattern (by omega) (by omega)
  have hm := hn.le
  rw [Spec.closedPattern, Spec.halfOpenPattern]
  bv_omega

/-- Settles O48: one step less in the normal form is one less in the pattern. -/
theorem halfOpenOutputIsOneStepBelowClosed : Obligations.HalfOpenOutputIsOneStepBelowClosed := by
  unfold Obligations.HalfOpenOutputIsOneStepBelowClosed
  exact ⟨by decide, fun _ => halfOpenPattern_of_ne_zero⟩

/-- The three steps of R145 are exact, since `2k + 1` is below 2^53. -/
theorem value_openValue (x : Word) :
    (openValue x).value = ((2 * (x.toNat / 2 ^ 12) + 1 : ℕ) : ℚ) * 2 ^ (-53 : ℤ) := by
  have hk : (x >>> 12).toNat = x.toNat / 2 ^ 12 := by rw [BitVec.toNat_ushiftRight, Nat.shiftRight_eq_div_pow]
  have hlt : x.toNat / 2 ^ 12 < 2 ^ 52 := by omega
  have hshort : IsShort (((2 * (x.toNat / 2 ^ 12) + 1 : ℕ) : ℚ) * 2 ^ (-1 : ℤ)) := isShort_mk (by omega) _
  have hsum : ((u64ToF64 (x >>> 12)).add oneHalf).value = ((2 * (x.toNat / 2 ^ 12) + 1 : ℕ) : ℚ) * 2 ^ (-1 : ℤ) := by
    rw [Scaled.value_add, value_oneHalf, value_u64ToF64_of_le (by omega), hk, Nat.cast_add_one, Nat.cast_mul,
      zpow_neg_one]
    push_cast
    ring
  have hproduct : ((roundNearest ((u64ToF64 (x >>> 12)).add oneHalf)).mul kOpen).value =
      ((2 * (x.toNat / 2 ^ 12) + 1 : ℕ) : ℚ) * 2 ^ (-1 : ℤ) * 2 ^ (-52 : ℤ) := by
    rw [Scaled.value_mul, value_roundNearest_of_isShort (hsum ▸ hshort), hsum, value_kOpen]
  rw [openValue, value_roundNearest_of_isShort (hproduct ▸ hshort.mul_two_zpow _), hproduct, mul_assoc,
    ← zpow_add₀ two_ne_zero]
  rfl

/-- Settles O49: the value after the three exact steps, written as a quotient. -/
theorem openOutputIsAnOddMultiple : Obligations.OpenOutputIsAnOddMultiple := by
  unfold Obligations.OpenOutputIsAnOddMultiple
  intro x
  rw [value_openValue, zpow_neg, div_eq_mul_inv]
  rfl

end Sys2Proof.Machine

/-! ## The results over all words (R142, R146, R147, R148) -/

namespace Sys2Proof.Machine

theorem patternValue_toPattern_of_value_eq_zero {q : Scaled} (h : q.value = 0) :
    Spec.patternValue (toPattern q) = q.value := by
  rw [h, toPattern, if_pos (Scaled.value_eq_zero_iff.mp h)]
  norm_num [Spec.patternValue]

theorem patternValue_u64ToF64 (x : Word) : Spec.patternValue (toPattern (u64ToF64 x)) = (u64ToF64 x).value := by
  obtain rfl | hx := eq_or_ne x 0#64
  · exact patternValue_toPattern_of_value_eq_zero value_u64ToF64_zero
  · obtain ⟨m, e, hn, hlo, hhi⟩ := exists_normalForm_u64ToF64 hx
    exact hn.patternValue_toPattern (by omega) (by omega)

@[simp] theorem patternValue_closedPattern (x : Word) :
    Spec.patternValue (Spec.closedPattern x) = (closedValue x).value := by
  obtain rfl | hx := eq_or_ne x 0#64
  · exact patternValue_toPattern_of_value_eq_zero (by rw [value_closedValue, value_u64ToF64_zero, zero_mul])
  · obtain ⟨m, e, hn, hlo, hhi⟩ := exists_normalForm_u64ToF64 hx
    exact (hn.mul_two_zpow (value_closedValue x)).patternValue_toPattern (by omega) (by omega)

theorem value_halfOpenValue_zero : (halfOpenValue 0#64).value = 0 :=
  Scaled.value_eq_zero_iff.mpr (by decide)

@[simp] theorem patternValue_halfOpenPattern (x : Word) :
    Spec.patternValue (Spec.halfOpenPattern x) = (halfOpenValue x).value := by
  obtain rfl | hx := eq_or_ne x 0#64
  · exact patternValue_toPattern_of_value_eq_zero value_halfOpenValue_zero
  · obtain ⟨m, e, hn, hlo, hhi⟩ := exists_normalForm_u64ToF64 hx
    obtain ⟨m', e', hn', hlo', hhi', -⟩ := exists_normalForm_halfOpenValue hn
    exact hn'.patternValue_toPattern (by omega) (by omega)

theorem openValue_bounds (x : Word) :
    (2 : ℚ) ^ (-53 : ℤ) ≤ (openValue x).value ∧ (openValue x).value ≤ 1 - (2 : ℚ) ^ (-53 : ℤ) := by
  have hlt : 2 * (x.toNat / 2 ^ 12) + 1 + 1 ≤ 2 ^ 53 := by omega
  have hcast : ((2 * (x.toNat / 2 ^ 12) + 1 : ℕ) : ℚ) ≤ 2 ^ 53 - 1 := le_sub_iff_add_le.mpr (by exact_mod_cast hlt)
  rw [value_openValue]
  constructor
  · exact le_mul_of_one_le_left (by positivity) (by exact_mod_cast Nat.le_add_left 1 _)
  · calc ((2 * (x.toNat / 2 ^ 12) + 1 : ℕ) : ℚ) * 2 ^ (-53 : ℤ)
      _ ≤ (2 ^ 53 - 1) * 2 ^ (-53 : ℤ) := by gcongr
      _ = 1 - 2 ^ (-53 : ℤ) := by norm_num

theorem openValue_le_one (x : Word) : (openValue x).value ≤ 2 ^ (0 : ℤ) := by
  have hpos : (0 : ℚ) < 2 ^ (-53 : ℤ) := by positivity
  rw [zpow_zero]
  linarith [openValue_bounds x]

@[simp] theorem patternValue_openPattern (x : Word) : Spec.patternValue (Spec.openPattern x) = (openValue x).value :=
  patternValue_toPattern_between (mant_roundNearest_le _) (openValue_bounds x).1 (openValue_le_one x) (by omega)
    (by omega)

/-- Settles O45: every pattern is that of zero or of a normal form in the normal range. -/
theorem patternsStandForTheirValues : Obligations.PatternsStandForTheirValues := by
  unfold Obligations.PatternsStandForTheirValues
  exact fun x => ⟨patternValue_u64ToF64 x, patternValue_closedPattern x, patternValue_halfOpenPattern x,
    patternValue_openPattern x⟩

theorem value_closedValue_le (x : Word) : (closedValue x).value ≤ 1 := by
  rw [value_closedValue]
  calc (u64ToF64 x).value * 2 ^ (-64 : ℤ)
    _ ≤ 2 ^ 64 * 2 ^ (-64 : ℤ) := by gcongr; exact value_u64ToF64_le x
    _ = 1 := by norm_num

/-- The product of R144 is at most `2^64 * K_HALF`, which is short. -/
theorem value_halfOpenValue_le (x : Word) : (halfOpenValue x).value ≤ 1 - 2 ^ (-53 : ℤ) := by
  refine value_roundNearest_le ⟨⟨2 ^ 53 - 1, -53⟩, by norm_num, by norm_num [Scaled.value]⟩ ?_
  rw [value_halfOpenProduct]
  calc (u64ToF64 x).value * ((2 ^ 53 - 1) * 2 ^ (-117 : ℤ))
    _ ≤ 2 ^ 64 * ((2 ^ 53 - 1) * 2 ^ (-117 : ℤ)) := by gcongr; exact value_u64ToF64_le x
    _ = 1 - 2 ^ (-53 : ℤ) := by norm_num

theorem patternValue_one : Spec.patternValue 0x3FF0000000000000#64 = 1 := by
  norm_num [Spec.patternValue, Nat.shiftRight_eq_div_pow]

theorem patternValue_below_one : Spec.patternValue 0x3FEFFFFFFFFFFFFF#64 = 1 - 2 ^ (-53 : ℤ) := by
  norm_num [Spec.patternValue, Nat.shiftRight_eq_div_pow]

/-- Settles O50: the bounds on the values, and the results of the least and the greatest word. -/
theorem realOutputsStayInRange : Obligations.RealOutputsStayInRange := by
  unfold Obligations.RealOutputsStayInRange
  refine ⟨fun x => ?_, ?_, ?_, ?_, ?_, ?_, ?_⟩
  · simp only [patternValue_closedPattern, patternValue_halfOpenPattern, patternValue_openPattern]
    exact ⟨Scaled.value_nonneg _, value_closedValue_le x, Scaled.value_nonneg _, value_halfOpenValue_le x,
      openValue_bounds x⟩
  · rw [patternValue_closedPattern, value_closedValue, value_u64ToF64_zero, zero_mul]
  · rw [show Spec.closedPattern 0xFFFFFFFFFFFFFFFF#64 = 0x3FF0000000000000#64 by decide, patternValue_one]
  · rw [patternValue_halfOpenPattern, value_halfOpenValue_zero]
  · rw [show Spec.halfOpenPattern 0xFFFFFFFFFFFFFFFF#64 = 0x3FEFFFFFFFFFFFFF#64 by decide, patternValue_below_one]
  · rw [patternValue_openPattern, value_openValue]
    norm_num
  · rw [show Spec.openPattern 0xFFFFFFFFFFFFFFFF#64 = 0x3FEFFFFFFFFFFFFF#64 by decide, patternValue_below_one]

/-- Words that round to one value have equal closed results. -/
theorem closedPattern_congr {x y : Word} (h : (u64ToF64 x).value = (u64ToF64 y).value) :
    Spec.closedPattern x = Spec.closedPattern y :=
  toPattern_congr (mant_roundNearest_le _) (by rw [value_closedValue, value_closedValue, h])

/-- So have they equal half-open results, which are one step below. -/
theorem halfOpenPattern_congr {x y : Word} (h : (u64ToF64 x).value = (u64ToF64 y).value) :
    Spec.halfOpenPattern x = Spec.halfOpenPattern y := by
  obtain rfl | hx := eq_or_ne x 0#64
  · rw [value_u64ToF64_zero, eq_comm, value_u64ToF64_eq_zero_iff] at h
    rw [h]
  · have hy : y ≠ 0#64 := by rwa [Ne, ← value_u64ToF64_eq_zero_iff, ← h, value_u64ToF64_eq_zero_iff]
    rw [halfOpenPattern_of_ne_zero hx, halfOpenPattern_of_ne_zero hy, closedPattern_congr h]

theorem openPattern_congr {x y : Word} (h : x >>> 12 = y >>> 12) : Spec.openPattern x = Spec.openPattern y := by
  rw [Spec.openPattern, Spec.openPattern, openValue, openValue, h]

/-- Settles O53: 2^63 and 2^63 + 1 round to one value and have equal top bits. -/
theorem realOutputsDependOnTheTopBits : Obligations.RealOutputsDependOnTheTopBits := by
  unfold Obligations.RealOutputsDependOnTheTopBits
  have hround : u64ToF64 0x8000000000000000#64 = u64ToF64 0x8000000000000001#64 := by decide
  have hvalue := congrArg Scaled.value hround
  exact ⟨fun x y => ⟨fun h => ⟨closedPattern_congr h, halfOpenPattern_congr h⟩, openPattern_congr⟩,
    0x8000000000000000#64, 0x8000000000000001#64, by decide, closedPattern_congr hvalue, halfOpenPattern_congr hvalue,
    openPattern_congr (by decide)⟩

/-- The product of R144 is in the order of the rounded words, and rounding keeps the order. -/
theorem value_halfOpenValue_mono {x y : Word} (h : x ≤ y) : (halfOpenValue x).value ≤ (halfOpenValue y).value := by
  obtain heq | hlt := (value_u64ToF64_mono h).eq_or_lt
  · rw [← patternValue_halfOpenPattern, ← patternValue_halfOpenPattern, halfOpenPattern_congr heq]
  · refine value_roundNearest_mono ?_
    rw [value_halfOpenProduct, value_halfOpenProduct]
    gcongr

/-- Settles O51: the rounded words are in order, a positive factor keeps it, and so does dropping the low 12 bits. -/
theorem realOutputsAreNonDecreasing : Obligations.RealOutputsAreNonDecreasing := by
  unfold Obligations.RealOutputsAreNonDecreasing
  intro x y h
  rw [patternValue_closedPattern, patternValue_closedPattern, patternValue_halfOpenPattern,
    patternValue_halfOpenPattern, patternValue_openPattern, patternValue_openPattern]
  refine ⟨?_, value_halfOpenValue_mono h, ?_⟩
  · rw [value_closedValue, value_closedValue]
    gcongr
    exact value_u64ToF64_mono h
  · rw [value_openValue, value_openValue]
    gcongr
    exact BitVec.le_def.mp h

/-- A result is +0.0, or its pattern lies between those of `K_HALF` and of 1.0. -/
def InResultRange (p : Word) : Prop :=
  p = 0#64 ∨ 0x3BEFFFFFFFFFFFFF ≤ p.toNat ∧ p.toNat ≤ 0x3FF0000000000000

/-- The closed result of a word that is not zero lies between 2^-64 and 1.0. -/
theorem closedPattern_bounds {x : Word} (hx : x ≠ 0#64) :
    0x3BF0000000000000 ≤ (Spec.closedPattern x).toNat ∧ (Spec.closedPattern x).toNat ≤ 0x3FF0000000000000 := by
  have hlo : (2 : ℚ) ^ (-64 : ℤ) ≤ (closedValue x).value := by
    rw [value_closedValue]
    exact le_mul_of_one_le_left (by positivity) (one_le_value_u64ToF64 hx)
  have hpattern := toNat_toPattern_between (q := closedValue x) (b := 0) (mant_roundNearest_le _) hlo
    (value_closedValue_le x) (by omega) (by omega)
  rw [Spec.closedPattern]
  omega

theorem inResultRange_closedPattern (x : Word) : InResultRange (Spec.closedPattern x) := by
  obtain rfl | hx := eq_or_ne x 0#64
  · exact .inl closedOutputIsTheRoundedWordScaled.1
  · obtain ⟨hlo, hhi⟩ := closedPattern_bounds hx
    exact .inr ⟨by omega, hhi⟩

theorem inResultRange_halfOpenPattern (x : Word) : InResultRange (Spec.halfOpenPattern x) := by
  obtain rfl | hx := eq_or_ne x 0#64
  · exact .inl halfOpenOutputIsOneStepBelowClosed.1
  · obtain ⟨hlo, hhi⟩ := closedPattern_bounds hx
    rw [halfOpenPattern_of_ne_zero hx]
    exact .inr (by bv_omega)

theorem inResultRange_openPattern (x : Word) : InResultRange (Spec.openPattern x) := by
  have hpattern := toNat_toPattern_between (q := openValue x) (mant_roundNearest_le _) (openValue_bounds x).1
    (openValue_le_one x) (by omega) (by omega)
  rw [Spec.openPattern]
  exact .inr (by omega)

/-- Settles O52: the range of the patterns leaves no other bits. -/
theorem realOutputsAreOrdinaryNumbers : Obligations.RealOutputsAreOrdinaryNumbers := by
  unfold Obligations.RealOutputsAreOrdinaryNumbers
  intro x p hp
  have hrange : InResultRange p := by
    obtain rfl | rfl | rfl := hp
    · exact inResultRange_closedPattern x
    · exact inResultRange_halfOpenPattern x
    · exact inResultRange_openPattern x
  obtain rfl | ⟨hlo, hhi⟩ := hrange
  · exact ⟨by decide, by decide, fun _ => rfl, fun h => absurd rfl h⟩
  · have hfield : (p.extractLsb' 52 11).toNat = p.toNat / 2 ^ 52 := by
      rw [BitVec.extractLsb'_toNat, Nat.shiftRight_eq_div_pow]
      omega
    refine ⟨?_, by omega, by omega, fun _ => BitVec.le_def.mpr hlo⟩
    exact Nat.testBit_lt_two_pow (by omega)

end Sys2Proof.Machine

/-! ## How a command ends (R65, R66, R160, R164)

Every command answers a next state or is refused, for one of three reasons that exclude each other; none faults. An
absent word is the one reason that lies in the store: a draw reads the word at the cursor, after an advance when none is
left, and an advance of a seeded block reads every word. -/

namespace Sys2Proof.Machine

/-- An advance finds a word absent: an unseeded block writes every word first, any other block reads them all (R104). -/
def AdvanceLacksWord (s : State) : Prop :=
  s.cursor.toNat ≤ 312 ∧ s.words.loadArray = .refused .absentWord

/-- A fetch finds a word absent: the one at the cursor, or one that the advance before it reads (R120). -/
def FetchLacksWord (s : State) : Prop :=
  (s.cursor.toNat ≤ 311 ∧ s.words.read s.cursor.toNat = none) ∨
    (312 ≤ s.cursor.toNat ∧ AdvanceLacksWord s)

/-- A command finds a word absent. -/
def LacksWord : Instr → State → Prop
  | .seed _, _ => False
  | .nextU64 _, s => FetchLacksWord s
  | .nextRealClosed _, s => FetchLacksWord s
  | .nextRealHalfOpen _, s => FetchLacksWord s
  | .nextRealOpen _, s => FetchLacksWord s
  | .advance _, s => AdvanceLacksWord s
  | .reserved6 _, _ => False
  | .reserved7 _, _ => False

theorem lacksWord_iff {i : Instr} {s : State} :
    LacksWord i s ↔ (isDraw i = true ∧ FetchLacksWord s) ∨ (i.opcode.toNat = 5 ∧ AdvanceLacksWord s) := by
  cases i <;> simp [LacksWord, isDraw, Instr.opcode]

theorem advanceState_outcome {s : State} (hc : s.cursor.toNat ≤ 313) :
    (¬ AdvanceLacksWord s ∧ ∃ a, advanceState s = .next { s with words := Memory.ofArray a, cursor := 0#9 }) ∨
      (AdvanceLacksWord s ∧ advanceState s = .refused .absentWord) := by
  obtain ⟨a, ha⟩ | ⟨hne, hload, hr⟩ := advanceState_cases s
  · refine .inl ⟨fun ⟨hle, hload⟩ => ?_, a, ha⟩
    rw [advanceState_seeded (cursor_ne_unseeded_of_le hle), hload] at ha
    cases ha
  · exact .inr ⟨⟨by bv_omega, hload⟩, hr⟩

theorem fetchWord_outcome {s : State} (hc : s.cursor.toNat ≤ 313) :
    (¬ FetchLacksWord s ∧ ∃ p, fetchWord s = .next p) ∨
      (FetchLacksWord s ∧ fetchWord s = .refused .absentWord) := by
  obtain hle | hge := Nat.lt_or_ge s.cursor.toNat 312
  · have hlacks : FetchLacksWord s ↔ s.words.read s.cursor.toNat = none := by
      simp [FetchLacksWord, Nat.le_of_lt_succ hle, Nat.not_le.mpr hle]
    rw [hlacks, fetchWord_of_cursor_le (Nat.le_of_lt_succ hle)]
    obtain ⟨v, -, hread, hv⟩ | ⟨-, hread, hv⟩ | ⟨hout, -⟩ := s.words.readWord_cases s.cursor.toNat
    · rw [hv, hread]
      exact .inl ⟨nofun, _, rfl⟩
    · rw [hv, hread]
      exact .inr ⟨rfl, rfl⟩
    · exact absurd hout (Nat.not_le.mpr hle)
  · have hlacks : FetchLacksWord s ↔ AdvanceLacksWord s := by
      simp [FetchLacksWord, hge, show ¬ s.cursor.toNat ≤ 311 by omega]
    rw [hlacks, fetchWord_no_word_left hge]
    obtain ⟨hl, a, ha⟩ | ⟨hl, hr⟩ := advanceState_outcome hc
    · rw [ha, andThen_next]
      exact .inl ⟨hl, _, fetchWord_word_left (by simp) (Memory.read_ofArray a (by simp))⟩
    · exact .inr ⟨hl, by rw [hr, andThen_refused]⟩

theorem draw_outcome (convert : Word → Word) {s : State} (hc : s.cursor.toNat ≤ 313) :
    (¬ FetchLacksWord s ∧ ∃ t, draw convert s = .next t) ∨
      (FetchLacksWord s ∧ draw convert s = .refused .absentWord) := by
  rw [draw, whenCursorInRange_of_le hc]
  obtain ⟨hl, p, hp⟩ | ⟨hl, hr⟩ := fetchWord_outcome hc
  · exact .inl ⟨hl, _, by rw [hp, andThen_next]⟩
  · exact .inr ⟨hl, by rw [hr, andThen_refused]⟩

/-- With the cursor in its range a legal command answers, unless it finds a word absent. -/
theorem exec_outcome {i : Instr} {s : State} (hi : i.wellFormed = true) (hc : s.cursor.toNat ≤ 313) :
    (¬ LacksWord i s ∧ ∃ t, exec i s = .next t) ∨ (LacksWord i s ∧ exec i s = .refused .absentWord) := by
  cases i with
  | seed v =>
    rw [exec_seed, whenCursorInRange_of_le hc]
    exact .inl ⟨not_false, _, rfl⟩
  | nextU64 a => exact draw_outcome (fun x => x) hc
  | nextRealClosed a => exact draw_outcome Spec.closedPattern hc
  | nextRealHalfOpen a => exact draw_outcome Spec.halfOpenPattern hc
  | nextRealOpen a => exact draw_outcome Spec.openPattern hc
  | advance a =>
    rw [exec_advance, whenCursorInRange_of_le hc]
    obtain ⟨hl, a, ha⟩ | ⟨hl, hr⟩ := advanceState_outcome hc
    · exact .inl ⟨hl, _, by rw [ha, andThen_next]⟩
    · exact .inr ⟨hl, by rw [hr, andThen_refused]⟩
  | reserved6 a => cases hi
  | reserved7 a => cases hi

/-- Every legal command stands behind the one test of the cursor. -/
theorem exec_eq_whenCursorInRange {i : Instr} (hi : i.wellFormed = true) :
    ∃ act, ∀ s, exec i s = whenCursorInRange s act := by
  cases i with
  | seed v => exact ⟨_, exec_seed v⟩
  | nextU64 a => exact ⟨_, exec_nextU64 a⟩
  | nextRealClosed a => exact ⟨_, exec_nextRealClosed a⟩
  | nextRealHalfOpen a => exact ⟨_, exec_nextRealHalfOpen a⟩
  | nextRealOpen a => exact ⟨_, exec_nextRealOpen a⟩
  | advance a => exact ⟨_, exec_advance a⟩
  | reserved6 a => cases hi
  | reserved7 a => cases hi

theorem exec_of_cursor_gt {i : Instr} {s : State} (hi : i.wellFormed = true) (hc : 313 < s.cursor.toNat) :
    exec i s = .refused .cursorOutOfRange := by
  obtain ⟨act, hact⟩ := exec_eq_whenCursorInRange hi
  rw [hact, whenCursorInRange_of_gt hc]

theorem exec_of_not_wellFormed {i : Instr} (hi : i.wellFormed = false) (s : State) :
    exec i s = .refused .reservedOpcode := by
  cases i with
  | reserved6 a => exact exec_reserved6 a s
  | reserved7 a => exact exec_reserved7 a s
  | _ => cases hi

/-- The three reasons for which a command is refused, each in its situation and no other. -/
theorem exec_eq_refused {i : Instr} {s : State} {r : Refusal} :
    exec i s = .refused r ↔
      (r = .reservedOpcode ∧ i.wellFormed = false) ∨
      (r = .cursorOutOfRange ∧ i.wellFormed = true ∧ 313 < s.cursor.toNat) ∨
      (r = .absentWord ∧ i.wellFormed = true ∧ s.cursor.toNat ≤ 313 ∧ LacksWord i s) := by
  cases hi : i.wellFormed with
  | false => simp [exec_of_not_wellFormed hi, eq_comm (a := r)]
  | true =>
    obtain hgt | hle := Nat.lt_or_ge 313 s.cursor.toNat
    · simp [exec_of_cursor_gt hi hgt, hgt, Nat.not_le.mpr hgt, eq_comm (a := r)]
    · obtain ⟨hl, t, ht⟩ | ⟨hl, hr⟩ := exec_outcome hi hle
      · simp [ht, hl, Nat.not_lt.mpr hle]
      · simp [hr, hl, hle, Nat.not_lt.mpr hle, eq_comm (a := r)]

/-- No command faults: every index it reads is that of a word (R42, R160). -/
theorem exec_ne_fault (i : Instr) (s : State) (f : Fault) : exec i s ≠ .fault f := by
  cases hi : i.wellFormed with
  | false => simp [exec_of_not_wellFormed hi]
  | true =>
    obtain hgt | hle := Nat.lt_or_ge 313 s.cursor.toNat
    · simp [exec_of_cursor_gt hi hgt]
    · obtain ⟨-, t, ht⟩ | ⟨-, hr⟩ := exec_outcome hi hle
      · simp [ht]
      · simp [hr]

/-! ## Every legal command completes in a sound state (R65, R66, R160) -/

/-- In a sound state no command finds a word absent: unless it writes them all first, every word holds a value (R34). -/
theorem not_advanceLacksWord_of_inv {s : State} (hs : s.Inv) : ¬ AdvanceLacksWord s := by
  obtain ⟨hwf, -, hall, -, -⟩ := hs
  rintro ⟨hle, hload⟩
  obtain ⟨a, ha⟩ := (Memory.loadArray_next_iff hwf).mpr (hall hle)
  rw [hload] at ha
  cases ha

theorem not_fetchLacksWord_of_inv {s : State} (hs : s.Inv) : ¬ FetchLacksWord s := by
  rintro (⟨hle, hread⟩ | ⟨-, hlacks⟩)
  · obtain ⟨-, -, hall, -, -⟩ := hs
    have hsome := hall (by omega) s.cursor.toNat (Nat.lt_succ_of_le hle)
    rw [hread] at hsome
    cases hsome
  · exact not_advanceLacksWord_of_inv hs hlacks

theorem not_lacksWord_of_inv {s : State} (hs : s.Inv) (i : Instr) : ¬ LacksWord i s := by
  rw [lacksWord_iff]
  rintro (⟨-, hfetch⟩ | ⟨-, hadvance⟩)
  · exact not_fetchLacksWord_of_inv hs hfetch
  · exact not_advanceLacksWord_of_inv hs hadvance

theorem exec_completes {i : Instr} {s : State} (hi : i.wellFormed = true) (hs : s.Inv) : ∃ t, exec i s = .next t := by
  have ⟨_, hc, _, _, _⟩ := hs
  obtain ⟨-, ht⟩ | ⟨hl, -⟩ := exec_outcome hi hc
  · exact ht
  · exact absurd hl (not_lacksWord_of_inv hs i)

/-- The response of a draw carries its result; that of a seeding or an advance carries no data (R66). -/
theorem exec_rsp_kind {i : Instr} {s t : State} (h : exec i s = .next t) :
    ∃ r, t.rsp = some r ∧ (r = .noData ↔ isDraw i = false) := by
  obtain ⟨-, ⟨v, rfl, rfl⟩ | ⟨_, s', rfl, -, rfl⟩ | ⟨hd, f, s', y, -, -, rfl⟩⟩ := exec_eq_next_cases h
  · exact ⟨.noData, rfl, by simp [isDraw]⟩
  · exact ⟨.noData, rfl, by simp [isDraw]⟩
  · exact ⟨.data (f y), rfl, by simp [hd]⟩

/-- Settles O18: in a sound state the cursor is in its range and no word that the command reads is absent. -/
theorem everyLegalCommandCompletes : Obligations.EveryLegalCommandCompletes := by
  unfold Obligations.EveryLegalCommandCompletes
  intro i s hi hs
  obtain ⟨t, ht⟩ := exec_completes hi hs
  obtain ⟨-, hcmd, -, -⟩ := exec_effect ht
  obtain ⟨r, hrsp, hkind⟩ := exec_rsp_kind ht
  exact ⟨t, r, ht, hcmd, hrsp, hkind⟩

end Sys2Proof.Machine

/-! ## The host's turn and the step (R69, R160, R164, R172) -/

namespace Sys2Proof.Machine

theorem whenCursorInRange_eq_refused {s : State} {act : State → Result State} {r : Refusal} :
    whenCursorInRange s act = .refused r ↔
      (r = .cursorOutOfRange ∧ 313 < s.cursor.toNat) ∨ (s.cursor.toNat ≤ 313 ∧ act s = .refused r) := by
  obtain hgt | hle := Nat.lt_or_ge 313 s.cursor.toNat
  · simp [whenCursorInRange_of_gt hgt, hgt, Nat.not_le.mpr hgt, eq_comm (a := r)]
  · simp [whenCursorInRange_of_le hle, hle, Nat.not_lt.mpr hle]

theorem whenCursorInRange_ne_fault {s : State} {act : State → Result State} (hact : ∀ f, act s ≠ .fault f)
    (f : Fault) : whenCursorInRange s act ≠ .fault f := by
  obtain hgt | hle := Nat.lt_or_ge 313 s.cursor.toNat
  · rw [whenCursorInRange_of_gt hgt]
    exact nofun
  · rw [whenCursorInRange_of_le hle]
    exact hact f

/-! What the host's turn is for each action, and what a wait comes to. -/

section HostTurn

variable {s : State} {rest : List HostAction}

theorem hostTurn_nil (h : s.host = []) : hostTurn s = whenCursorInRange s .next := by rw [hostTurn, h]

theorem hostTurn_reset (h : s.host = .reset :: rest) : hostTurn s = .next (resetBlock rest) := by rw [hostTurn, h]

theorem hostTurn_issue {c : CmdWord} (h : s.host = .issue c :: rest) : hostTurn s = acceptCommand c rest s := by
  rw [hostTurn, h]

theorem hostTurn_take (h : s.host = .take :: rest) : hostTurn s = whenCursorInRange s (takeResponse rest) := by
  rw [hostTurn, h]

theorem hostTurn_touch (h : s.host = .touch :: rest) : hostTurn s = .refused .concurrentAccess := by rw [hostTurn, h]

theorem takeResponse_of_some {r : Response} (h : s.rsp = some r) :
    takeResponse rest s = .next { s with rsp := none, host := rest } := by
  rw [takeResponse, h, Option.isSome_some, if_pos rfl]

theorem takeResponse_of_none (h : s.rsp = none) : takeResponse rest s = .next s := by
  rw [takeResponse, h, Option.isSome_none, if_neg Bool.false_ne_true]

end HostTurn

/-- What comes of an issue: a refusal of a busy block, a refusal of a reserved opcode, or the test of the cursor. -/
theorem acceptCommand_eq (c : CmdWord) (rest : List HostAction) (s : State) :
    acceptCommand c rest s =
      if s.busy = true then .refused .concurrentAccess
      else if reservedCommand c = true then .refused .reservedOpcode
      else whenCursorInRange s fun s => .next { s with cmd := some c, host := rest } := rfl

theorem acceptCommand_eq_refused {c : CmdWord} {rest : List HostAction} {s : State} {r : Refusal} :
    acceptCommand c rest s = .refused r ↔
      (r = .concurrentAccess ∧ s.busy = true) ∨
      (r = .reservedOpcode ∧ s.busy = false ∧ reservedCommand c = true) ∨
      (r = .cursorOutOfRange ∧ s.busy = false ∧ reservedCommand c = false ∧ 313 < s.cursor.toNat) := by
  rw [acceptCommand_eq]
  cases s.busy with
  | true => simp [eq_comm (a := r)]
  | false =>
    cases reservedCommand c with
    | true => simp [eq_comm (a := r)]
    | false => simp [whenCursorInRange_eq_refused]

theorem acceptCommand_ne_fault (c : CmdWord) (rest : List HostAction) (s : State) (f : Fault) :
    acceptCommand c rest s ≠ .fault f := by
  rw [acceptCommand_eq]
  split
  · exact nofun
  · split
    · exact nofun
    · exact whenCursorInRange_ne_fault (by simp) f

/-- The refusals of the host's turn: an idle step or a wait with the cursor above 313, an issue that is not accepted, and
an outside touch. -/
theorem hostTurn_eq_refused {s : State} {r : Refusal} :
    hostTurn s = .refused r ↔
      (r = .cursorOutOfRange ∧ 313 < s.cursor.toNat ∧ (s.host = [] ∨ ∃ rest, s.host = .take :: rest)) ∨
      (∃ c rest, s.host = .issue c :: rest ∧ acceptCommand c rest s = .refused r) ∨
      (r = .concurrentAccess ∧ ∃ rest, s.host = .touch :: rest) := by
  cases hh : s.host with
  | nil => simp [hostTurn_nil hh, whenCursorInRange_eq_refused]
  | cons action rest =>
    cases action with
    | reset => simp [hostTurn_reset hh]
    | issue c => simp [hostTurn_issue hh]
    | take => simp [hostTurn_take hh, whenCursorInRange_eq_refused, takeResponse]
    | touch => simp [hostTurn_touch hh, eq_comm (a := r)]

theorem hostTurn_ne_fault (s : State) (f : Fault) : hostTurn s ≠ .fault f := by
  cases hh : s.host with
  | nil =>
    rw [hostTurn_nil hh]
    exact whenCursorInRange_ne_fault (by simp) f
  | cons action rest =>
    cases action with
    | reset => simp [hostTurn_reset hh]
    | issue c =>
      rw [hostTurn_issue hh]
      exact acceptCommand_ne_fault c rest s f
    | take =>
      rw [hostTurn_take hh]
      exact whenCursorInRange_ne_fault (by simp [takeResponse]) f
    | touch => simp [hostTurn_touch hh]

theorem step_of_fetched {s : State} {c : CmdWord} (h : fetchCommand s = some c) : step s = exec (decode c) s := by
  rw [step, h]

/-- Settles O15: neither a command nor the host's turn faults. -/
theorem noStepFaults : Obligations.NoStepFaults := by
  unfold Obligations.NoStepFaults
  intro s f
  cases hf : fetchCommand s with
  | some c =>
    rw [step_of_fetched hf]
    exact exec_ne_fault (decode c) s f
  | none =>
    rw [step_of_no_command hf]
    exact hostTurn_ne_fault s f

/-- Settles O11: with no command in progress the step is the host's, and an empty list and a wait stand behind the test of
the cursor. -/
theorem idleBlockHoldsItsState : Obligations.IdleBlockHoldsItsState := by
  unfold Obligations.IdleBlockHoldsItsState
  refine ⟨fun s hcmd hhost hc => ?_, fun s r rest hcmd hrsp hhost hc => ?_, fun s hcmd hhost hc => ?_⟩
  · rw [step_of_cmd_none hcmd, hostTurn_nil hhost, whenCursorInRange_of_le hc]
  · exact step_take hcmd hrsp hc hhost
  · rw [step_of_cmd_none hcmd]
    exact hostTurn_eq_refused.mpr (.inl ⟨rfl, hc, hhost⟩)

end Sys2Proof.Machine

/-! ## A lawful host is never refused (R69, R160, R185)

In a safe state a command in progress completes with its response, which the lawful host may then take; and every action
such a host may take next is accepted and leaves a state from which its further actions are lawful. -/

namespace Sys2Proof.Machine

theorem hostLegal_issue {busy : Bool} {c : CmdWord} {rest : List HostAction} :
    hostLegal busy (.issue c :: rest) = true ↔
      busy = false ∧ (decode c).wellFormed = true ∧ hostLegal true rest = true := by
  simp [hostLegal, and_assoc]

theorem hostLegal_take {busy : Bool} {rest : List HostAction} :
    hostLegal busy (.take :: rest) = true ↔ busy = true ∧ hostLegal false rest = true := by
  simp [hostLegal]

theorem busy_eq_false_iff {s : State} : s.busy = false ↔ s.cmd = none ∧ s.rsp = none := by
  simp [State.busy]

/-- A command in progress in a safe state completes, and the host has its response to take, as while it ran. -/
theorem exec_safe {s : State} {c : CmdWord} (hs : s.Safe) (hc : s.cmd = some c) :
    ∃ t, exec (decode c) s = .next t ∧ t.Safe := by
  obtain ⟨hinv, hlegal, hhost⟩ := hs
  obtain ⟨t, ht⟩ := exec_completes (hlegal c hc) hinv
  obtain ⟨hthost, htcmd, -, -⟩ := exec_effect ht
  obtain ⟨r, hrsp⟩ := exec_rsp ht
  have hbusy : t.busy = s.busy := by simp [State.busy, hc, hrsp]
  refine ⟨t, ht, exec_keeps_inv hinv ht, fun d hd => ?_, ?_⟩
  · rw [htcmd] at hd
    cases hd
  · rw [hbusy, hthost, hhost]

/-- Every action a lawful host takes next in a safe state is accepted and leaves the state safe. -/
theorem hostTurn_safe {s : State} (hs : s.Safe) : ∃ t, hostTurn s = .next t ∧ t.Safe := by
  have ⟨hinv, hlegal, hhost⟩ := hs
  have ⟨_, hc, _, _, hcmdrsp⟩ := hinv
  cases hh : s.host with
  | nil => exact ⟨s, by rw [hostTurn_nil hh, whenCursorInRange_of_le hc], hs⟩
  | cons action rest =>
    rw [hh] at hhost
    cases action with
    | reset => exact ⟨_, hostTurn_reset hh, resetBlock_inv rest, nofun, hhost⟩
    | issue c =>
      obtain ⟨hbusy, hwf, hrest⟩ := hostLegal_issue.mp hhost
      obtain ⟨hcmd, hrsp⟩ := busy_eq_false_iff.mp hbusy
      have ht : hostTurn s = .next { s with cmd := some c, host := rest } := by
        rw [hostTurn_issue hh]
        exact acceptCommand_eq_next.mpr ⟨hcmd, hrsp, wellFormed_iff_reservedCommand.mp hwf, hc, rfl⟩
      refine ⟨_, ht, hostTurn_keeps_inv hinv ht, fun d hd => ?_, hrest⟩
      cases hd
      exact hwf
    | take =>
      obtain ⟨-, hrest⟩ := hostLegal_take.mp hhost
      cases hrsp : s.rsp with
      | none => exact ⟨s, by rw [hostTurn_take hh, whenCursorInRange_of_le hc, takeResponse_of_none hrsp], hs⟩
      | some r =>
        have ht : hostTurn s = .next { s with rsp := none, host := rest } := by
          rw [hostTurn_take hh, whenCursorInRange_of_le hc, takeResponse_of_some hrsp]
        have hcmd : s.cmd = none := by
          refine Option.not_isSome_iff_eq_none.mp fun hsome => ?_
          rw [hcmdrsp hsome] at hrsp
          cases hrsp
        have hbusy : ({ s with rsp := none, host := rest } : State).busy = false :=
          busy_eq_false_iff.mpr ⟨hcmd, rfl⟩
        refine ⟨_, ht, hostTurn_keeps_inv hinv ht, hlegal, ?_⟩
        rw [hbusy]
        exact hrest
    | touch => cases hhost

/-- Settles O14: a step is a command in progress or the host's turn, and from a safe state each answers a safe one. -/
theorem lawfulHostIsNeverRefused : Obligations.LawfulHostIsNeverRefused := by
  unfold Obligations.LawfulHostIsNeverRefused
  intro s hs
  cases hf : fetchCommand s with
  | some c =>
    obtain ⟨hc, -⟩ := fetchCommand_eq_some.mp hf
    rw [step_of_fetched hf]
    exact exec_safe hs hc
  | none =>
    rw [step_of_no_command hf]
    exact hostTurn_safe hs

end Sys2Proof.Machine

/-! ## Each refusal in its situation (R164)

A step is refused where its command or the host's turn is; what refuses each of these is known, and here it is said in
terms of the opcode and of the words. -/

namespace Sys2Proof.Machine

theorem step_eq_refused {s : State} {r : Refusal} :
    step s = .refused r ↔
      (∃ c, fetchCommand s = some c ∧ exec (decode c) s = .refused r) ∨
        (fetchCommand s = none ∧ hostTurn s = .refused r) := by
  cases hf : fetchCommand s with
  | some c => simp [step_of_fetched hf]
  | none => simp [step_of_no_command hf]

theorem wellFormed_decode_iff {c : CmdWord} : (decode c).wellFormed = true ↔ (opField c).toNat ≤ 5 :=
  legalWordsAreOpcodesZeroToFive.1 c

theorem wellFormed_decode_eq_false_iff {c : CmdWord} : (decode c).wellFormed = false ↔ 6 ≤ (opField c).toNat := by
  rw [Bool.eq_false_iff, ne_eq, wellFormed_decode_iff]
  omega

theorem reservedCommand_eq_false_iff {c : CmdWord} : reservedCommand c = false ↔ (opField c).toNat ≤ 5 := by
  rw [← wellFormed_iff_reservedCommand, wellFormed_decode_iff]

/-- In canonical form, the whole array is refused exactly when some word holds no value. -/
theorem Memory.loadArray_refused_iff {m : Memory} (h : m.wf) :
    m.loadArray = .refused .absentWord ↔ ∃ i < 312, m.read i = none := by
  have hall := Memory.loadArray_next_iff h
  obtain ⟨a, ha⟩ | hr := m.loadArray_cases
  · simpa [ha, Option.isSome_iff_ne_none] using hall
  · simpa [hr, Option.isSome_iff_ne_none] using hall

theorem wellFormed_of_lacksWord {i : Instr} {s : State} (h : LacksWord i s) : i.wellFormed = true := by
  cases i with
  | reserved6 a => cases h
  | reserved7 a => cases h
  | _ => rfl

theorem cursor_le_of_lacksWord {i : Instr} {s : State} (h : LacksWord i s) : s.cursor.toNat ≤ 313 := by
  obtain ⟨-, ⟨hle, -⟩ | ⟨-, hle, -⟩⟩ | ⟨-, hle, -⟩ := lacksWord_iff.mp h
  · omega
  · omega
  · omega

theorem step_reservedOpcode_iff {s : State} :
    step s = .refused .reservedOpcode ↔
      ∃ c, 6 ≤ (opField c).toNat ∧ (s.cmd = some c ∨ ∃ rest, s.host = .issue c :: rest ∧ s.busy = false) := by
  simp only [step_eq_refused, exec_eq_refused, hostTurn_eq_refused, acceptCommand_eq_refused,
    wellFormed_decode_eq_false_iff, reservedCommand_iff, true_and, false_and, or_false, false_or, reduceCtorEq]
  constructor
  · rintro (⟨c, hf, hop⟩ | ⟨-, c, rest, hhost, hbusy, hop⟩)
    · exact ⟨c, hop, .inl (fetchCommand_eq_some.mp hf).1⟩
    · exact ⟨c, hop, .inr ⟨rest, hhost, hbusy⟩⟩
  · rintro ⟨c, hop, hcmd | ⟨rest, hhost, hbusy⟩⟩
    · exact .inl ⟨c, fetchCommand_eq_some.mpr ⟨hcmd, .inr (reservedCommand_iff.mpr hop)⟩, hop⟩
    · obtain ⟨hcmd, -⟩ := busy_eq_false_iff.mp hbusy
      exact .inr ⟨by rw [fetchCommand, hcmd], c, rest, hhost, hbusy, hop⟩

theorem step_concurrentAccess_iff {s : State} :
    step s = .refused .concurrentAccess ↔
      fetchCommand s = none ∧
        ((∃ c rest, s.host = .issue c :: rest ∧ s.busy = true) ∨ ∃ rest, s.host = .touch :: rest) := by
  simp [step_eq_refused, exec_eq_refused, hostTurn_eq_refused, acceptCommand_eq_refused]

theorem step_cursorOutOfRange_iff {s : State} :
    step s = .refused .cursorOutOfRange ↔
      313 < s.cursor.toNat ∧
        ((∃ c, fetchCommand s = some c ∧ (opField c).toNat ≤ 5) ∨
         (fetchCommand s = none ∧
          (s.host = [] ∨ (∃ rest, s.host = .take :: rest) ∨
           ∃ c rest, s.host = .issue c :: rest ∧ s.busy = false ∧ (opField c).toNat ≤ 5))) := by
  simp only [step_eq_refused, exec_eq_refused, hostTurn_eq_refused, acceptCommand_eq_refused,
    wellFormed_decode_iff, reservedCommand_eq_false_iff, true_and, false_and, or_false, false_or, reduceCtorEq]
  constructor
  · rintro (⟨c, hf, hop, hc⟩ | ⟨hf, ⟨hc, hhost | hhost⟩ | ⟨c, rest, hhost, hbusy, hop, hc⟩⟩)
    · exact ⟨hc, .inl ⟨c, hf, hop⟩⟩
    · exact ⟨hc, .inr ⟨hf, .inl hhost⟩⟩
    · exact ⟨hc, .inr ⟨hf, .inr (.inl hhost)⟩⟩
    · exact ⟨hc, .inr ⟨hf, .inr (.inr ⟨c, rest, hhost, hbusy, hop⟩)⟩⟩
  · rintro ⟨hc, ⟨c, hf, hop⟩ | ⟨hf, hhost | hhost | ⟨c, rest, hhost, hbusy, hop⟩⟩⟩
    · exact .inl ⟨c, hf, hop, hc⟩
    · exact .inr ⟨hf, .inl ⟨hc, .inl hhost⟩⟩
    · exact .inr ⟨hf, .inl ⟨hc, .inr hhost⟩⟩
    · exact .inr ⟨hf, .inr ⟨c, rest, hhost, hbusy, hop, hc⟩⟩

theorem step_absentWord_iff {s : State} :
    step s = .refused .absentWord ↔ ∃ c, fetchCommand s = some c ∧ LacksWord (decode c) s := by
  simp only [step_eq_refused, exec_eq_refused, hostTurn_eq_refused, acceptCommand_eq_refused,
    true_and, false_and, and_false, or_false, false_or, exists_false, reduceCtorEq]
  refine exists_congr fun c => and_congr_right fun _ => ⟨fun ⟨_, _, hl⟩ => hl, fun hl => ?_⟩
  exact ⟨wellFormed_of_lacksWord hl, cursor_le_of_lacksWord hl, hl⟩

/-- The situations in which a command finds a word absent, over a store in canonical form. -/
theorem lacksWord_decode_iff {c : CmdWord} {s : State} (hs : s.words.wf) :
    LacksWord (decode c) s ↔
      (isDraw (decode c) = true ∧ s.cursor.toNat ≤ 311 ∧ s.words.read s.cursor.toNat = none) ∨
      (isDraw (decode c) = true ∧ s.cursor.toNat = 312 ∧ ∃ i < 312, s.words.read i = none) ∨
      ((opField c).toNat = 5 ∧ s.cursor.toNat ≤ 312 ∧ ∃ i < 312, s.words.read i = none) := by
  have hadvance : 312 ≤ s.cursor.toNat ∧ AdvanceLacksWord s ↔
      s.cursor.toNat = 312 ∧ ∃ i < 312, s.words.read i = none := by
    rw [AdvanceLacksWord, Memory.loadArray_refused_iff hs, ← and_assoc]
    exact and_congr_left fun _ => by omega
  rw [lacksWord_iff, opcode_decode, FetchLacksWord, hadvance, AdvanceLacksWord, Memory.loadArray_refused_iff hs,
    and_or_left, or_assoc]

/-- Settles O17: one lemma for each refusal; no command and no action of the host refuses for any other reason. -/
theorem refusalsAreTheListedSituations : Obligations.RefusalsAreTheListedSituations := by
  unfold Obligations.RefusalsAreTheListedSituations
  intro s hs
  refine ⟨step_reservedOpcode_iff, step_concurrentAccess_iff, step_cursorOutOfRange_iff, ?_, fun m => ?_⟩
  · simp only [step_absentWord_iff, lacksWord_decode_iff hs]
  · simp [step_eq_refused, exec_eq_refused, hostTurn_eq_refused, acceptCommand_eq_refused]

end Sys2Proof.Machine

/-! ## The reset event (R180, R181) -/

namespace Sys2Proof.Machine

/-- A legal command in progress does not run while the host's next action is no wait. -/
theorem fetchCommand_eq_none {s : State} (hw : hostWaits s.host = false)
    (hlegal : ∀ c, s.cmd = some c → reservedCommand c = false) : fetchCommand s = none := by
  refine Option.eq_none_iff_forall_ne_some.mpr fun c hf => ?_
  obtain ⟨hc, hwait | hr⟩ := fetchCommand_eq_some.mp hf
  · exact absurd hwait (Bool.eq_false_iff.mp hw)
  · exact absurd hr (Bool.eq_false_iff.mp (hlegal c hc))

/-- Settles O9: a reset is no wait, so with no reserved opcode in progress it falls before any command completes, and
it looks neither at the cursor nor at the command it abandons. -/
theorem resetEventGivesTheResetState : Obligations.ResetEventGivesTheResetState := by
  unfold Obligations.ResetEventGivesTheResetState
  refine fun s rest hhost => ⟨fun hlegal => ?_, fun c hc hill => ?_⟩
  · have hw : hostWaits s.host = false := by rw [hhost, hostWaits]
    have hf : fetchCommand s = none :=
      fetchCommand_eq_none hw fun c hc => wellFormed_iff_reservedCommand.mp (hlegal c hc)
    rw [step_of_no_command hf, hostTurn_reset hhost, resetBlock]
  · have hr : reservedCommand c = true := by rw [reservedCommand, hill, Bool.not_false]
    exact step_of_reserved hc hr

end Sys2Proof.Machine

/-! ## The commands of the written-out programs (95_test_vectors.md section 5) -/

namespace Sys2Proof

/-- A word written out as the command word of a command decodes to that command. -/
theorem decode_eq_of_encode_eq {c : CmdWord} {i : Instr} (h : encode i = c) : decode c = i := by
  rw [← h, decodeOfEncodeIsTheCommand]

/-- Settles O5: each number written in the programs is its command's opcode above its argument. -/
theorem writtenOutWordsDecode : Obligations.WrittenOutWordsDecode := by
  unfold Obligations.WrittenOutWordsDecode
  refine ⟨?_, ?_, ?_, ?_, ?_, ?_, ?_, ?_, ?_⟩ <;> exact decode_eq_of_encode_eq (by decide)

end Sys2Proof

/-! ## The top bit under the mix step (95_test_vectors.md section 3.2)

Flipping bit 63 is adding `2^63`, since the carry out of it is lost; and an odd multiple of `2^63` is `2^63` again. -/

namespace Sys2Proof.Machine

/-- The bits below bit 63 of the other summand are zero, so no carry enters any bit. -/
theorem carry_topBit (s : Word) {k : Nat} (hk : k < 64) : BitVec.carry k s 0x8000000000000000#64 false = false := by
  have hlow : (0x8000000000000000#64).toNat % 2 ^ k = 0 :=
    Nat.mod_eq_zero_of_dvd (Nat.pow_dvd_pow 2 (by omega : k ≤ 63))
  have hlt : s.toNat % 2 ^ k < 2 ^ k := Nat.mod_lt _ (Nat.two_pow_pos k)
  rw [BitVec.carry, hlow]
  simpa using hlt

/-- Flipping the top bit of a word is adding that bit. -/
theorem xor_topBit_eq_add (s : Word) : s ^^^ 0x8000000000000000#64 = s + 0x8000000000000000#64 := by
  refine BitVec.eq_of_getLsbD_eq fun k hk => ?_
  rw [BitVec.getLsbD_add hk, carry_topBit s hk, Bool.xor_false, BitVec.getLsbD_xor]

theorem lcgMul_mul_topBit : lcgMul * 0x8000000000000000#64 = 0x8000000000000000#64 := by decide

/-- Settles O25: the mix step is affine, and its odd multiplier keeps the top bit that is added. -/
theorem mixCommutesWithTopBitFlip : Obligations.MixCommutesWithTopBitFlip := by
  unfold Obligations.MixCommutesWithTopBitFlip
  intro s
  calc mix (s ^^^ 0x8000000000000000#64)
    _ = lcgMul * (s + 0x8000000000000000#64) + lcgAdd := by rw [xor_topBit_eq_add, mix]
    _ = lcgMul * s + lcgAdd + 0x8000000000000000#64 := by rw [BitVec.mul_add, lcgMul_mul_topBit, add_right_comm]
    _ = mix s ^^^ 0x8000000000000000#64 := by rw [xor_topBit_eq_add, mix]

end Sys2Proof.Machine
